-- ==== Sys2Proof/Word.lean ====
section
/-! DEFINITION. The word types of the CORE (spec/00_scope.md R11, R13): bytes, 16-bit words and addresses, register numbers. -/

namespace Sys2Proof

/-- A general register, a timer or a memory byte: 8 bits (R11). -/
abbrev Byte := BitVec 8

/-- An instruction word: 16 bits (R11). -/
abbrev Word := BitVec 16

/-- A program counter, an index register or a return address: 16 bits (R11). -/
abbrev Addr := BitVec 16

/-- A general register's number, 0 to 15 (10_state.md R30). -/
abbrev RegIdx := BitVec 4

/-- A key code, 0 to 15 (10_state.md R48, R49). -/
abbrev KeyCode := BitVec 4

end Sys2Proof
end

