-- ==== Sys2Proof/Config.lean ====
section
/-! DEFINITION. What an implementation fixes (spec/00_scope.md R7 to R10) and the free values, which nothing constrains. -/

namespace Sys2Proof

/-- The configuration: fixed at construction, never changed by an instruction, a host command or reset (R7, 70_reset_and_hazards.md R341). -/
structure Config where
  /-- `MEM_SIZE`, the number of memory bytes (R7). -/
  memSize : Nat
  /-- `DISPLAY_WIDTH`, the number of pixel columns (R8). -/
  width : Nat
  /-- `DISPLAY_HEIGHT`, the number of pixel rows (R8). -/
  height : Nat
  /-- `STACK_CAPACITY`, the number of return addresses the call stack holds (R9). -/
  stackCapacity : Nat
  /-- `FONT`, the 80 bytes reset copies to memory offset 0 (R10). -/
  font : Vector Byte 80
  deriving DecidableEq, Repr

/-- Glyphs 0 to 7 of the conventional font, PRESUMED: the spec prints it "from general knowledge, not in source" (R10, D15; log entry 2). -/
def Config.glyphs0to7 : List Byte :=
  [0xF0, 0x90, 0x90, 0x90, 0xF0,
   0x20, 0x60, 0x20, 0x20, 0x70,
   0xF0, 0x10, 0xF0, 0x80, 0xF0,
   0xF0, 0x10, 0xF0, 0x10, 0xF0,
   0x90, 0x90, 0xF0, 0x10, 0x10,
   0xF0, 0x80, 0xF0, 0x10, 0xF0,
   0xF0, 0x80, 0xF0, 0x90, 0xF0,
   0xF0, 0x10, 0x20, 0x40, 0x40]

/-- Glyphs 8 to F of the conventional font (PRESUMED, R10; log entry 2). -/
def Config.glyphs8toF : List Byte :=
  [0xF0, 0x90, 0xF0, 0x90, 0xF0,
   0xF0, 0x90, 0xF0, 0x10, 0xF0,
   0xF0, 0x90, 0xF0, 0x90, 0x90,
   0xE0, 0x90, 0xE0, 0x90, 0xE0,
   0xF0, 0x80, 0x80, 0x80, 0xF0,
   0xE0, 0x90, 0x90, 0x90, 0xE0,
   0xF0, 0x80, 0xF0, 0x80, 0xF0,
   0xF0, 0x80, 0xF0, 0x80, 0x80]

/-- The default `FONT` (R10). -/
def Config.defaultFont : Vector Byte 80 :=
  Vector.ofFn fun k => (Config.glyphs0to7 ++ Config.glyphs8toF).getD k.val 0

/-- The default configuration (R7, R8, R9, R10). -/
def Config.default : Config where
  memSize := 4096
  width := 64
  height := 32
  stackCapacity := 16
  font := Config.defaultFont

/-- FREE VALUE. The byte the `random_byte` input supplies to the n-th draw: "A claim about a program that runs CXNN must
hold for every value of `r`" (42_alu.md R211, D16; log entry 3). It has no body, so no proof can see a value of it. -/
opaque Config.randomByte : Nat → Byte

/-- FREE VALUE. What the 16-bit `address` field of the error record holds for a failed load at an offset of 2^16 or more,
which does not fit it (10_state.md R54 against 20_memory.md R91; log entry 8). -/
opaque Config.wideLoadAddress : Nat → Addr

end Sys2Proof
end

