-- ==== Sys2Proof/Syntax.lean ====
section
/-! DEFINITION. The instructions: one constructor per row of spec/opcode_table.json (30_encoding.md R115, R125). -/

namespace Sys2Proof

/-- The 34 instruction kinds, under the names `decode` gives them (R115). `x` and `y` are register numbers, `nn` a byte
immediate, `nnn` a 12-bit address, `n` a sprite height; each field has exactly the width the encoding gives it (R112), so
every term is well formed. `shr` and `shl` hold no `Y`: every `Y` selects the same instruction (R113). -/
inductive Instr where
  | cls                                          -- 00E0
  | ret                                          -- 00EE
  | jp (nnn : BitVec 12)                         -- 1NNN
  | call (nnn : BitVec 12)                       -- 2NNN
  | seByte (x : RegIdx) (nn : Byte)              -- 3XNN
  | sneByte (x : RegIdx) (nn : Byte)             -- 4XNN
  | seReg (x y : RegIdx)                         -- 5XY0
  | ldByte (x : RegIdx) (nn : Byte)              -- 6XNN
  | addByte (x : RegIdx) (nn : Byte)             -- 7XNN
  | ldReg (x y : RegIdx)                         -- 8XY0
  | orReg (x y : RegIdx)                         -- 8XY1
  | andReg (x y : RegIdx)                        -- 8XY2
  | xorReg (x y : RegIdx)                        -- 8XY3
  | addReg (x y : RegIdx)                        -- 8XY4
  | subReg (x y : RegIdx)                        -- 8XY5
  | shr (x : RegIdx)                             -- 8XY6
  | subn (x y : RegIdx)                          -- 8XY7
  | shl (x : RegIdx)                             -- 8XYE
  | sneReg (x y : RegIdx)                        -- 9XY0
  | ldI (nnn : BitVec 12)                        -- ANNN
  | jpV0 (nnn : BitVec 12)                       -- BNNN
  | rnd (x : RegIdx) (nn : Byte)                 -- CXNN
  | drw (x y : RegIdx) (n : BitVec 4)            -- DXYN
  | skp (x : RegIdx)                             -- EX9E
  | sknp (x : RegIdx)                            -- EXA1
  | ldFromDT (x : RegIdx)                        -- FX07
  | ldK (x : RegIdx)                             -- FX0A
  | ldDT (x : RegIdx)                            -- FX15
  | ldST (x : RegIdx)                            -- FX18
  | addI (x : RegIdx)                            -- FX1E
  | ldF (x : RegIdx)                             -- FX29
  | ldB (x : RegIdx)                             -- FX33
  | ldStore (x : RegIdx)                         -- FX55
  | ldLoad (x : RegIdx)                          -- FX65
  deriving DecidableEq, Repr

end Sys2Proof
end

