-- ==== Sys2Proof/WellFormed.lean ====
section
/-! DEFINITION. Which configurations are legal (spec/00_scope.md R7, R8, R9; 92_eei_decisions.md D27). An `Instr` needs no
such check: its fields have the encoding's widths (30_encoding.md R112), so no term of it is ill formed. -/

namespace Sys2Proof

/-- `MEM_SIZE` lies in 0x200 to 0x10000 inclusive (R7). -/
def Config.memSizeOk (c : Config) : Bool := 0x200 ≤ c.memSize && c.memSize ≤ 0x10000

/-- `DISPLAY_WIDTH` lies in 1 to 256 (R8). -/
def Config.widthOk (c : Config) : Bool := 1 ≤ c.width && c.width ≤ 256

/-- `DISPLAY_HEIGHT` lies in 1 to 256 (R8). -/
def Config.heightOk (c : Config) : Bool := 1 ≤ c.height && c.height ≤ 256

/-- `STACK_CAPACITY` lies in 1 to 65535 (R9). -/
def Config.stackCapacityOk (c : Config) : Bool := 1 ≤ c.stackCapacity && c.stackCapacity ≤ 65535

/-- A legal configuration: every parameter in its range; `FONT` may be any 80 bytes (R10). -/
def Config.wellFormed (c : Config) : Bool :=
  c.memSizeOk && c.widthOk && c.heightOk && c.stackCapacityOk

end Sys2Proof
end

