-- ==== Sys2Proof/Decode.lean ====
section
/-! DEFINITION. The decoder (spec/30_encoding.md R110 to R122) and, after it, the encoder (R125, R126). -/

namespace Sys2Proof

/-- `F`, the family: `w[15:12]` (R112). -/
def fieldF (w : Word) : BitVec 4 := w.extractLsb' 12 4

/-- `X`, the first register: `w[11:8]` (R112). -/
def fieldX (w : Word) : RegIdx := w.extractLsb' 8 4

/-- `Y`, the second register: `w[7:4]` (R112). -/
def fieldY (w : Word) : RegIdx := w.extractLsb' 4 4

/-- `N`, the sprite height or sub-function: `w[3:0]` (R112). -/
def fieldN (w : Word) : BitVec 4 := w.extractLsb' 0 4

/-- `NN`, the byte immediate or sub-function: `w[7:0]` (R112). -/
def fieldNN (w : Word) : Byte := w.extractLsb' 0 8

/-- `NNN`, the address immediate: `w[11:0]` (R112). -/
def fieldNNN (w : Word) : BitVec 12 := w.extractLsb' 0 12

/-- Family 0 holds exactly 00E0 and 00EE (R116). -/
def decodeFamily0 (w : Word) : Option Instr :=
  if w = 0x00E0 then some .cls
  else if w = 0x00EE then some .ret
  else none

/-- Family 8 dispatches on `N` (R118). -/
def decodeFamily8 (x y : RegIdx) (n : BitVec 4) : Option Instr :=
  if n = 0x0 then some (.ldReg x y)
  else if n = 0x1 then some (.orReg x y)
  else if n = 0x2 then some (.andReg x y)
  else if n = 0x3 then some (.xorReg x y)
  else if n = 0x4 then some (.addReg x y)
  else if n = 0x5 then some (.subReg x y)
  else if n = 0x6 then some (.shr x)
  else if n = 0x7 then some (.subn x y)
  else if n = 0xE then some (.shl x)
  else none

/-- Family E dispatches on `NN` (R119). -/
def decodeFamilyE (x : RegIdx) (nn : Byte) : Option Instr :=
  if nn = 0x9E then some (.skp x)
  else if nn = 0xA1 then some (.sknp x)
  else none

/-- Family F dispatches on `NN` (R120). -/
def decodeFamilyF (x : RegIdx) (nn : Byte) : Option Instr :=
  if nn = 0x07 then some (.ldFromDT x)
  else if nn = 0x0A then some (.ldK x)
  else if nn = 0x15 then some (.ldDT x)
  else if nn = 0x18 then some (.ldST x)
  else if nn = 0x1E then some (.addI x)
  else if nn = 0x29 then some (.ldF x)
  else if nn = 0x33 then some (.ldB x)
  else if nn = 0x55 then some (.ldStore x)
  else if nn = 0x65 then some (.ldLoad x)
  else none

/-- `decode(w)` (R115), a total function of the word alone; `none` is the spec's `Unknown`. -/
def decodeWord (w : Word) : Option Instr :=
  let x := fieldX w
  let y := fieldY w
  let n := fieldN w
  let nn := fieldNN w
  let nnn := fieldNNN w
  if fieldF w = 0x0 then decodeFamily0 w
  else if fieldF w = 0x1 then some (.jp nnn)
  else if fieldF w = 0x2 then some (.call nnn)
  else if fieldF w = 0x3 then some (.seByte x nn)
  else if fieldF w = 0x4 then some (.sneByte x nn)
  else if fieldF w = 0x5 then (if n = 0 then some (.seReg x y) else none)
  else if fieldF w = 0x6 then some (.ldByte x nn)
  else if fieldF w = 0x7 then some (.addByte x nn)
  else if fieldF w = 0x8 then decodeFamily8 x y n
  else if fieldF w = 0x9 then (if n = 0 then some (.sneReg x y) else none)
  else if fieldF w = 0xA then some (.ldI nnn)
  else if fieldF w = 0xB then some (.jpV0 nnn)
  else if fieldF w = 0xC then some (.rnd x nn)
  else if fieldF w = 0xD then some (.drw x y n)
  else if fieldF w = 0xE then decodeFamilyE x nn
  else decodeFamilyF x nn

/-- The big-endian composition of two bytes, `hi` in bits 15 to 8 (20_memory.md R85, R88). -/
def bigEndian (hi lo : Byte) : Word := hi ++ lo

/-- Bits 15 to 8 of a word, the byte at the lower address (20_memory.md R88). -/
def highByte (w : Word) : Byte := w.extractLsb' 8 8

/-- Bits 7 to 0 of a word, the byte at the higher address (20_memory.md R88). -/
def lowByte (w : Word) : Byte := w.extractLsb' 0 8

/-- What decoding a byte sequence answers. -/
inductive Decoded where
  /-- An instruction, and the bytes after it. -/
  | instr (i : Instr) (rest : List Byte)
  /-- The first word is none of the 34 instructions (R121). -/
  | unknownInstruction (w : Word) (rest : List Byte)
  /-- Fewer than two bytes stand there: no word to decode (R110). -/
  | incomplete
  deriving DecidableEq, Repr

/-- Decoding takes exactly 2 bytes, the high byte first (R110). -/
def decodeBytes : List Byte → Decoded
  | hi :: lo :: rest =>
    match decodeWord (bigEndian hi lo) with
    | some i => .instr i rest
    | none => .unknownInstruction (bigEndian hi lo) rest
  | _ => .incomplete

/-- Format `XNN`: family, X, byte (R113). -/
def packXNN (f : BitVec 4) (x : RegIdx) (nn : Byte) : Word := f ++ x ++ nn

/-- Formats `XY` and `XYN`: family, X, Y, low nibble (R113). -/
def packXYN (f : BitVec 4) (x y : RegIdx) (n : BitVec 4) : Word := f ++ x ++ y ++ n

/-- Format `NNN`: family, address (R113). -/
def packNNN (f : BitVec 4) (nnn : BitVec 12) : Word := f ++ nnn

/-- The word of an instruction (R125, R126). `SHR` and `SHL` are written with `Y = 0` (R126). -/
def encode : Instr → Word
  | .cls => 0x00E0
  | .ret => 0x00EE
  | .jp nnn => packNNN 0x1 nnn
  | .call nnn => packNNN 0x2 nnn
  | .seByte x nn => packXNN 0x3 x nn
  | .sneByte x nn => packXNN 0x4 x nn
  | .seReg x y => packXYN 0x5 x y 0x0
  | .ldByte x nn => packXNN 0x6 x nn
  | .addByte x nn => packXNN 0x7 x nn
  | .ldReg x y => packXYN 0x8 x y 0x0
  | .orReg x y => packXYN 0x8 x y 0x1
  | .andReg x y => packXYN 0x8 x y 0x2
  | .xorReg x y => packXYN 0x8 x y 0x3
  | .addReg x y => packXYN 0x8 x y 0x4
  | .subReg x y => packXYN 0x8 x y 0x5
  | .shr x => packXYN 0x8 x 0x0 0x6
  | .subn x y => packXYN 0x8 x y 0x7
  | .shl x => packXYN 0x8 x 0x0 0xE
  | .sneReg x y => packXYN 0x9 x y 0x0
  | .ldI nnn => packNNN 0xA nnn
  | .jpV0 nnn => packNNN 0xB nnn
  | .rnd x nn => packXNN 0xC x nn
  | .drw x y n => packXYN 0xD x y n
  | .skp x => packXNN 0xE x 0x9E
  | .sknp x => packXNN 0xE x 0xA1
  | .ldFromDT x => packXNN 0xF x 0x07
  | .ldK x => packXNN 0xF x 0x0A
  | .ldDT x => packXNN 0xF x 0x15
  | .ldST x => packXNN 0xF x 0x18
  | .addI x => packXNN 0xF x 0x1E
  | .ldF x => packXNN 0xF x 0x29
  | .ldB x => packXNN 0xF x 0x33
  | .ldStore x => packXNN 0xF x 0x55
  | .ldLoad x => packXNN 0xF x 0x65

/-- The two bytes of an instruction as memory holds them, high byte first (R110, 20_memory.md R88). -/
def encodeBytes (i : Instr) : List Byte := [highByte (encode i), lowByte (encode i)]

/-- The word whose `nbits` table bits are `w`; every bit above `nbits` is 0. The table's instructions are all one 16-bit word. -/
def tableWord (nbits w : Nat) : Word := BitVec.ofNat 16 (w % 2 ^ nbits)

/-- The instruction the decoder reads from the bytes of a table word, laid out as the hardware stores them. -/
def decodeTableWord (nbits w : Nat) : Option Instr :=
  match decodeBytes [highByte (tableWord nbits w), lowByte (tableWord nbits w)] with
  | .instr i _ => some i
  | .unknownInstruction _ _ => none
  | .incomplete => none

end Sys2Proof
end

