-- ==== Sys2Proof/Machine/Display.lean ====
section
/-! DEFINITION. The display bitmap and the pixel operations of the rasterizer (spec/10_state.md R51, 44_display.md R241, R242,
R243): `H × W` one-bit pixels held row-major, pixel `(r, c)` at `r * W + c`. -/

namespace Sys2Proof.Machine

/-- The pixels, row by row; `true` is on (R51, R243). -/
abbrev Bitmap := List Bool

/-- Every pixel off (R240, R51). -/
def Bitmap.blank (width height : Nat) : Bitmap := List.replicate (height * width) false

/-- `disp[r][c]`; an index outside the bitmap, which no legal state reaches, reads as off. -/
def Bitmap.pixel (width : Nat) (d : Bitmap) (r c : Nat) : Bool := d.getD (r * width + c) false

/-- `disp[r][c] <- b`. -/
def Bitmap.setPixel (width : Nat) (d : Bitmap) (r c : Nat) (b : Bool) : Bitmap := d.set (r * width + c) b

/-- One sprite bit at a pixel already reduced to the display: a 1 inverts the pixel and collides if it was on; a 0 changes
nothing (R241). The pair is the bitmap and `collided`. -/
def Bitmap.drawBit (width r c : Nat) (bit : Bool) (p : Bitmap × Bool) : Bitmap × Bool :=
  if bit then
    (Bitmap.setPixel width p.1 r c (Bool.xor (Bitmap.pixel width p.1 r c) true), p.2 || Bitmap.pixel width p.1 r c)
  else p

/-- One sprite row: bits from most to least significant, bit `7 - c` at column `(cx + c) mod W` of row `(cy + r) mod H`, each
seeing the pixels the earlier ones left (R241, R242). `py` is the reduced row. -/
def Bitmap.drawByte (width py cx : Nat) (b : Byte) (p : Bitmap × Bool) : Bitmap × Bool :=
  (List.range 8).foldl (fun q c => Bitmap.drawBit width py ((cx + c) % width) (b.getLsbD (7 - c)) q) p

end Sys2Proof.Machine
end

