-- ==== Sys2Proof/Machine/Memory.lean ====
section
/-! DEFINITION. Memory as a list of (address, byte) pairs in one canonical form (spec/20_memory.md R80 to R83): addresses
strictly rising, every address below `MEM_SIZE`, no entry equal to what an unlisted address reads as. -/

namespace Sys2Proof.Machine

/-- The bytes that differ from their reset contents, by rising address. -/
abbrev Memory := List Host.Cell

/-- What an unlisted address reads as, its contents after reset: `FONT` at 0 to 79, 0x00 elsewhere (R82, R83). -/
def initialByte (font : Vector Byte 80) (a : Nat) : Byte := (font[a]?).getD 0

/-- The listed byte at an address, if there is one. -/
def Memory.lookup : Memory → Nat → Option Byte
  | [], _ => none
  | (a', b') :: m, a => if a' = a then some b' else Memory.lookup m a

/-- The byte at an address, `Mem[a]` (R80). The range check of R84 is the accessor's, not this function's. -/
def Memory.read (font : Vector Byte 80) (m : Memory) (a : Nat) : Byte := (Memory.lookup m a).getD (initialByte font a)

/-- Lists a byte at its place in the rising order, replacing the entry of that address. -/
def Memory.insert : Memory → Nat → Byte → Memory
  | [], a, b => [(a, b)]
  | (a', b') :: m, a, b =>
    if a < a' then (a, b) :: (a', b') :: m
    else if a = a' then (a, b) :: m
    else (a', b') :: Memory.insert m a b

/-- Drops the entry of an address. -/
def Memory.erase (m : Memory) (a : Nat) : Memory := m.filter fun c => c.1 ≠ a

/-- `Mem[a] <- b` (R84), keeping the canonical form: writing the reset contents removes the entry. -/
def Memory.write (font : Vector Byte 80) (m : Memory) (a : Nat) (b : Byte) : Memory :=
  if b = initialByte font a then Memory.erase m a else Memory.insert m a b

/-- Addresses strictly rise. -/
def Memory.rising : Memory → Bool
  | [] => true
  | (a, _) :: m => (m.all fun c => a < c.1) && Memory.rising m

/-- The canonical form of a memory of `size` bytes over `font`. -/
def Memory.wf (font : Vector Byte 80) (size : Nat) (m : Memory) : Bool :=
  Memory.rising m && m.all fun c => c.1 < size && c.2 ≠ initialByte font c.1

end Sys2Proof.Machine
end

