-- ==== Sys2Proof/Machine/State.lean ====
section
/-! DEFINITION. The state of the CORE as plain data (spec/10_state.md R29), its reset (70_reset_and_hazards.md R340), and the
reasons a step can stop. -/

namespace Sys2Proof.Machine

/-- The engine mode (10_state.md R53). -/
inductive Mode where
  | running
  | awaitingKey
  | halted
  deriving DecidableEq, Repr

/-- The three failure kinds (60_exceptions.md R300). -/
inductive ErrKind where
  | unknownInstruction
  | outOfBounds
  | loadTooLarge
  deriving DecidableEq, Repr

/-- Which resource was out of range (10_state.md R54, 60_exceptions.md R303). -/
inductive Space where
  | fetch
  | memRead
  | memWrite
  | stackOverflow
  | stackUnderflow
  | key
  deriving DecidableEq, Repr

/-- The error record (10_state.md R54, 60_exceptions.md R300). A field the failure does not record is `none`. -/
structure ErrRecord where
  /-- Which failure; its numeric `code` is `ErrKind.code`. -/
  kind : ErrKind
  /-- The address of the instruction that failed, or the load offset. -/
  address : Addr
  /-- The instruction word, when one was fetched. -/
  opcode : Option Word
  /-- For `OutOfBounds`: the resource. -/
  space : Option Space
  /-- For `OutOfBounds`: the value out of range; for `LoadTooLarge`: the program size. -/
  index : Option Nat
  deriving DecidableEq, Repr

/-- Every piece of state the CORE holds (10_state.md R29), and two fields of the model's own (`cfg` and `draws`). -/
@[ext]
structure State where
  /-- `x[0..15]`, the general registers; `x[15]` is VF (R30, R31). -/
  regs : Vector Byte 16
  /-- `I`, the index register (R40). -/
  index : Addr
  /-- `pc`, the program counter (R34). -/
  pc : Addr
  /-- `stack[0..CAP-1]`, the return addresses (R41). -/
  stack : List Addr
  /-- `sp`, the number of stack entries in use (R41). -/
  sp : Nat
  /-- `DT`, the delay timer (R46). -/
  dt : Byte
  /-- `ST`, the sound timer (R46). -/
  st : Byte
  /-- `keys[0..15]`; `true` is down (R48). -/
  keys : Vector Bool 16
  /-- `latch`, the last released key (R49). -/
  latch : Option KeyCode
  /-- `mode`, the engine mode (R53). -/
  mode : Mode
  /-- `err`, the stored error (R54). -/
  err : Option ErrRecord
  /-- `disp[0..H-1][0..W-1]`, row-major (R51, 44_display.md R243). -/
  disp : Bitmap
  /-- `Mem[0..MEM_SIZE-1]`: the bytes that differ from their reset contents (20_memory.md R80, R82). -/
  mem : Memory
  /-- The model's own: the configuration, fixed for the machine and never written (00_scope.md R7 to R10; log entry 1). -/
  cfg : Config
  /-- The model's own: how many random bytes were taken, the argument of the free value `Config.randomByte` (log entry 3). -/
  draws : Nat
  deriving DecidableEq, Repr

/-- The state reset leaves under a configuration (70_reset_and_hazards.md R340): every piece of state at its reset value;
memory lists nothing, because an unlisted address reads as its reset contents. -/
def State.ofReset (cfg : Config) (draws : Nat) : State where
  regs := Vector.replicate 16 0
  index := 0x0000
  pc := 0x0200
  stack := List.replicate cfg.stackCapacity 0x0000
  sp := 0
  dt := 0x00
  st := 0x00
  keys := Vector.replicate 16 false
  latch := none
  mode := .running
  err := none
  disp := Bitmap.blank cfg.width cfg.height
  mem := []
  cfg := cfg
  draws := draws

/-- The machine right after reset, under the default configuration (R340, 00_scope.md R7 to R10). -/
def State.reset : State := State.ofReset Config.default 0

/-- Why a step can be stuck. -/
inductive Fault where
  /-- Raised by the fetch of a step in AWAITING_KEY whose fetched word is not FX0A: "it is stuck, not given a meaning"
  (40_execute_cycle.md R149, D13). SAFE: the spec gives no step from such a state, and no state that meets the model's
  invariant is one. -/
  | keyWaitBroken
  deriving DecidableEq, Repr

/-- Why a command can be refused. -/
inductive Refusal where
  /-- Raised by an arm of `exec` for an instruction that has no meaning yet. SAFE. No arm raises it. -/
  | notModelled (mnemonic : String)
  /-- Raised by the host session for a `load` outside the boot window, which the spec gives no meaning
  (70_reset_and_hazards.md R342, D24). SAFE: no claim can be proved of what follows. -/
  | loadOutsideBootWindow
  /-- Raised by the host session for any command but `reset` before the first reset (10_state.md R57, D35). SAFE: no claim
  can be proved of what follows. -/
  | commandBeforeReset
  deriving DecidableEq, Repr

end Sys2Proof.Machine
end

