-- ==== Sys2Proof/Machine/Ops.lean ====
section
/-! DEFINITION. The named operations over registers, memory, the call stack, the keys and the engine mode, and raising a
failure, the one operation all failures share (spec/40_execute_cycle.md R150). -/

namespace Sys2Proof.Machine

/-- What a step answers. -/
abbrev Result := Host.Outcome State Fault Refusal

/-! ## Registers and the program counter -/

/-- `x[i]` (00_scope.md R14). -/
def State.v (s : State) (x : RegIdx) : Byte := s.regs[x.toNat]'(x.isLt)

/-- `x[i] <- b`. -/
def State.setV (s : State) (x : RegIdx) (b : Byte) : State := { s with regs := s.regs.set x.toNat b x.isLt }

/-- `I <- a`. -/
def State.setIndex (s : State) (a : Addr) : State := { s with index := a }

/-- `pc <- target`. -/
def State.setPc (s : State) (target : Addr) : State := { s with pc := target }

/-- The provisional write `pc <- (A + 2) mod 2^16` (40_execute_cycle.md R143, 10_state.md R37). -/
def State.advance (s : State) : State := s.setPc (s.pc + 2)

/-- Skip next instruction: `pc <- (A + 4) mod 2^16` (R146, 10_state.md R37). The state is the one before the provisional write. -/
def State.skip (s : State) : State := s.setPc (s.pc + 4)

/-- A conditional skip: `A + 4` when taken, the provisional `A + 2` when not (R146). -/
def State.skipIf (s : State) (taken : Bool) : State := if taken then s.skip else s.advance

/-! ## Timers, latch, mode, display -/

/-- `DT <- b`. -/
def State.setDt (s : State) (b : Byte) : State := { s with dt := b }

/-- `ST <- b`. -/
def State.setSt (s : State) (b : Byte) : State := { s with st := b }

/-- `latch <- l`. -/
def State.setLatch (s : State) (l : Option KeyCode) : State := { s with latch := l }

/-- `mode <- m`. -/
def State.setMode (s : State) (m : Mode) : State := { s with mode := m }

/-- The whole bitmap is replaced. -/
def State.setDisp (s : State) (d : Bitmap) : State := { s with disp := d }

/-- `disp[r][c]`. -/
def State.pixel (s : State) (r c : Nat) : Bool := Bitmap.pixel s.cfg.width s.disp r c

/-! ## The random source -/

/-- `random_byte()`: one free byte a draw (42_alu.md R211; log entry 3). -/
def State.randomByte (s : State) : Byte := Config.randomByte s.draws

/-- The draw is taken: the next one is another free byte. -/
def State.countDraw (s : State) : State := { s with draws := s.draws + 1 }

/-! ## Raising a failure -/

/-- The numeric code of a failure (60_exceptions.md R300). -/
def ErrKind.code : ErrKind → Nat
  | .unknownInstruction => 1
  | .outOfBounds => 2
  | .loadTooLarge => 3

/-- The record of `UnknownInstruction(opcode = w, address = A)` (R300, R302). -/
def unknownInstructionRecord (address : Addr) (w : Word) : ErrRecord :=
  ⟨.unknownInstruction, address, some w, none, none⟩

/-- The record of `OutOfBounds(space, index)` at address `A`; the opcode is absent for a fetch (R300, R303). -/
def outOfBoundsRecord (address : Addr) (opcode : Option Word) (space : Space) (index : Nat) : ErrRecord :=
  ⟨.outOfBounds, address, opcode, some space, some index⟩

/-- The record's address for a failed load at offset `o`: the offset itself where it fits the 16-bit field, else a free
value (20_memory.md R91, 10_state.md R54; log entry 8). -/
def loadAddress (o : Nat) : Addr := if o < 0x10000 then BitVec.ofNat 16 o else Config.wideLoadAddress o

/-- The record of `LoadTooLarge(address = o, index = size)` (R91, R300). -/
def loadTooLargeRecord (o size : Nat) : ErrRecord := ⟨.loadTooLarge, loadAddress o, none, none, some size⟩

/-- `raise e`: `err <- e`, `mode <- HALTED`, nothing else; earlier writes stay (R150, 60_exceptions.md R301, R307). -/
def State.raise (s : State) (e : ErrRecord) : State := { s with err := some e, mode := .halted }

/-- What a checked access answers: a value and the state after it, or what was out of range and the state reached by then. -/
inductive Access (α : Type) where
  | ok (val : α) (s : State)
  | failed (space : Space) (index : Nat) (s : State)

/-- A failed access ends the operation; a successful one hands its value and state on. -/
def Access.bind {α β : Type} (r : Access α) (k : α → State → Access β) : Access β :=
  match r with
  | .ok a s => k a s
  | .failed sp ix s => .failed sp ix s

/-- The end of an instruction at `A` with word `w` that may fail: it completes with `k`, or it raises `OutOfBounds` with
the record of R300. Either way the step has a next state. -/
def Access.conclude {α : Type} (A : Addr) (w : Word) (k : α → State → State) (r : Access α) : Result :=
  match r with
  | .ok a s => .next (k a s)
  | .failed sp ix s => .next (s.raise (outOfBoundsRecord A (some w) sp ix))

/-! ## Memory -/

/-- The byte at an address of memory, nothing at or above `MEM_SIZE` (20_memory.md R80). -/
def State.byteAt (s : State) (a : Nat) : Option Byte :=
  if a < s.cfg.memSize then some (Memory.read s.cfg.font s.mem a) else none

/-- `Mem[a] <- b` without a check: the caller has made it. -/
def State.poke (s : State) (a : Nat) (b : Byte) : State := { s with mem := Memory.write s.cfg.font s.mem a b }

/-- `MemRead(a, 1)` with access kind `space` (R84). -/
def memRead8 (space : Space) (a : Nat) (s : State) : Access Byte :=
  match s.byteAt a with
  | some b => .ok b s
  | none => .failed space a s

/-- `MemWrite(a, 1, b)` (R84). -/
def memWrite8 (a : Nat) (b : Byte) (s : State) : Access Unit :=
  if a < s.cfg.memSize then .ok () (s.poke a b) else .failed .memWrite a s

/-- `MemRead(a, 2)` with access kind `space`: both addresses are checked, the lower first (R85). -/
def memRead16 (space : Space) (a : Nat) (s : State) : Access Word :=
  (memRead8 space a s).bind fun hi s => (memRead8 space (a + 1) s).bind fun lo s => .ok (bigEndian hi lo) s

/-- `MemWrite(a, 2, v)`: both addresses are checked before either byte is written (R86). No instruction uses it. -/
def memWrite16 (a : Nat) (v : Word) (s : State) : Access Unit :=
  if a < s.cfg.memSize then
    if a + 1 < s.cfg.memSize then .ok () ((s.poke a (highByte v)).poke (a + 1) (lowByte v))
    else .failed .memWrite (a + 1) s
  else .failed .memWrite a s

/-- Byte stores at `a`, `a + 1`, …, in ascending order; the stores before a failing one stay (R90, R150). -/
def storeBytes : List Byte → Nat → State → Access Unit
  | [], _, s => .ok () s
  | b :: bs, a, s => (memWrite8 a b s).bind fun _ s => storeBytes bs (a + 1) s

/-- `x[k + j] <- MemRead(a + j, 1)` for `j` from 0 to `n - 1`; the loads before a failing one stay (43_index_memory.md R225). -/
def loadRegs : Nat → Nat → Nat → State → Access Unit
  | 0, _, _, s => .ok () s
  | n + 1, k, a, s =>
    (memRead8 .memRead a s).bind fun b s => loadRegs n (k + 1) (a + 1) (s.setV (BitVec.ofNat 4 k) b)

/-- `Mem[o + k] <- bytes[k]` for every `k`, the range checked beforehand (20_memory.md R91). -/
def State.pokeBytes (s : State) : Nat → List Byte → State
  | _, [] => s
  | o, b :: bs => (s.poke o b).pokeBytes (o + 1) bs

/-! ## The call stack -/

/-- `push(v)` (10_state.md R43). -/
def pushStack (v : Addr) (s : State) : Access Unit :=
  if s.sp = s.cfg.stackCapacity then .failed .stackOverflow s.sp s
  else .ok () { s with stack := s.stack.set s.sp v, sp := s.sp + 1 }

/-- `pop()`; the entry read is not cleared (10_state.md R44). -/
def popStack (s : State) : Access Addr :=
  if s.sp = 0 then .failed .stackUnderflow 0 s
  else .ok (s.stack.getD (s.sp - 1) 0) { s with sp := s.sp - 1 }

/-! ## Keys -/

/-- Whether key `k` is down; a code above 15 is out of range (46_input.md R282, R283, 10_state.md R48). -/
def keyIsDown (k : Byte) (s : State) : Access Bool :=
  if h : k.toNat < 16 then .ok s.keys[k.toNat] s else .failed .key k.toNat s

/-! ## The rasterizer -/

/-- Rows `r` to `r + n - 1` of a sprite at column `cx`, row `cy`: a memory byte a row, ascending; rows before a failing read
stay drawn (44_display.md R241). The value is `collided`. -/
def drawRows : Nat → Nat → Nat → Nat → Bool → State → Access Bool
  | 0, _, _, _, collided, s => .ok collided s
  | n + 1, r, cx, cy, collided, s =>
    (memRead8 .memRead (s.index.toNat + r) s).bind fun b s =>
      drawRows n (r + 1) cx cy
        (Bitmap.drawByte s.cfg.width ((cy + r) % s.cfg.height) cx b (s.disp, collided)).2
        (s.setDisp (Bitmap.drawByte s.cfg.width ((cy + r) % s.cfg.height) cx b (s.disp, collided)).1)

end Sys2Proof.Machine
end

