-- ==== Sys2Proof/Machine/Operands.lean ====
section
/-! DEFINITION. Operand forms (spec/30_encoding.md R114): zero-extended immediates, the effective address, the registers of a
block transfer, and the digits and addresses computed from a register. -/

namespace Sys2Proof.Machine

/-- `x[15]`, the flag register (10_state.md R31). -/
def vf : RegIdx := 15

/-- `zext_16(NNN)` (R114). -/
def zextAddr (nnn : BitVec 12) : Addr := nnn.setWidth 16

/-- `zext_16(b)` of a byte (00_scope.md R13). -/
def zextByte (b : Byte) : Addr := b.setWidth 16

/-- `zext_8(latch)` (46_input.md R285). -/
def zextKey (k : KeyCode) : Byte := k.setWidth 8

/-- The base of a data access, `I` as an unbounded natural: `I + k` is never wrapped (20_memory.md R87). -/
def State.base (s : State) : Nat := s.index.toNat

/-- `x[0]` to `x[X]`, in ascending order (43_index_memory.md R224). -/
def State.regsUpTo (s : State) (x : RegIdx) : List Byte := s.regs.toList.take (x.toNat + 1)

/-- The hundreds, tens and ones digits of a byte (43_index_memory.md R223). -/
def bcdDigits (b : Byte) : List Byte :=
  [BitVec.ofNat 8 (b.toNat / 100), BitVec.ofNat 8 (b.toNat / 10 % 10), BitVec.ofNat 8 (b.toNat % 10)]

/-- `zext_16(b) * 5`, the address of glyph `b`; `b` is not masked (43_index_memory.md R222). -/
def glyphAddress (b : Byte) : Addr := zextByte b * 5

/-- `zext_16(x[0]) + zext_16(NNN)`, the target of `BNNN` (41_control_flow.md R177). -/
def offsetTarget (v0 : Byte) (nnn : BitVec 12) : Addr := zextByte v0 + zextAddr nnn

end Sys2Proof.Machine
end

