-- ==== Sys2Proof/Machine/Flags.lean ====
section
/-! DEFINITION. The flag computations (spec/10_state.md R39, 42_alu.md R191, R203). VF is the CORE's one flag. -/

namespace Sys2Proof.Machine

/-- A flag as VF holds it: 1 or 0. -/
def flagByte (f : Bool) : Byte := if f then 1 else 0

/-- The carry of an addition: the unbounded sum exceeds 255 (R198). -/
def carry (a b : Byte) : Bool := a.toNat + b.toNat > 255

/-- NOT borrow of `a - b`: `a ≥ b` (R199, R201). -/
def notBorrow (a b : Byte) : Bool := a.toNat ≥ b.toNat

/-- The bit a right shift by one drops, `a[0]` (R200). -/
def lowBit (a : Byte) : Bool := a.getLsbD 0

/-- The bit a left shift by one drops, `a[7]` (R202). -/
def highBit (a : Byte) : Bool := a.getLsbD 7

/-- The result is written to `x[X]` first and the flag to `x[15]` last, so the flag wins when `X = 15` (R191, D6). -/
def State.writeWithFlag (s : State) (x : RegIdx) (result : Byte) (flag : Bool) : State :=
  (s.setV x result).setV vf (flagByte flag)

end Sys2Proof.Machine
end

