-- ==== Sys2Proof/Machine/Alu.lean ====
section
/-! DEFINITION. Register loads and the 8-bit ALU (spec/42_alu.md). Operands are read before anything is written (R191). -/

namespace Sys2Proof.Machine

/-- `LD Vx, nn` (R192). -/
def execLdByte (x : RegIdx) (nn : Byte) (s : State) : Result := .next (s.advance.setV x nn)

/-- `ADD Vx, nn`: no flag (R193). -/
def execAddByte (x : RegIdx) (nn : Byte) (s : State) : Result := .next (s.advance.setV x (s.v x + nn))

/-- `LD Vx, Vy` (R194). -/
def execLdReg (x y : RegIdx) (s : State) : Result := .next (s.advance.setV x (s.v y))

/-- `OR Vx, Vy`: no flag (R195). -/
def execOrReg (x y : RegIdx) (s : State) : Result := .next (s.advance.setV x (s.v x ||| s.v y))

/-- `AND Vx, Vy`: no flag (R196). -/
def execAndReg (x y : RegIdx) (s : State) : Result := .next (s.advance.setV x (s.v x &&& s.v y))

/-- `XOR Vx, Vy`: no flag (R197). -/
def execXorReg (x y : RegIdx) (s : State) : Result := .next (s.advance.setV x (s.v x ^^^ s.v y))

/-- `ADD Vx, Vy` (R198). -/
def execAddReg (x y : RegIdx) (s : State) : Result :=
  .next (s.advance.writeWithFlag x (s.v x + s.v y) (carry (s.v x) (s.v y)))

/-- `SUB Vx, Vy` (R199). -/
def execSubReg (x y : RegIdx) (s : State) : Result :=
  .next (s.advance.writeWithFlag x (s.v x - s.v y) (notBorrow (s.v x) (s.v y)))

/-- `SHR Vx`: `Y` is not read (R200). -/
def execShr (x : RegIdx) (s : State) : Result :=
  .next (s.advance.writeWithFlag x (s.v x >>> 1) (lowBit (s.v x)))

/-- `SUBN Vx, Vy` (R201). -/
def execSubn (x y : RegIdx) (s : State) : Result :=
  .next (s.advance.writeWithFlag x (s.v y - s.v x) (notBorrow (s.v y) (s.v x)))

/-- `SHL Vx`: `Y` is not read (R202). -/
def execShl (x : RegIdx) (s : State) : Result :=
  .next (s.advance.writeWithFlag x (s.v x <<< 1) (highBit (s.v x)))

/-- `RND Vx, nn`: the byte is a free value (R210, R211; log entry 3). -/
def execRnd (x : RegIdx) (nn : Byte) (s : State) : Result :=
  .next ((s.advance.setV x (s.randomByte &&& nn)).countDraw)

end Sys2Proof.Machine
end

