-- ==== Sys2Proof/Machine/ControlFlow.lean ====
section
/-! DEFINITION. The control flow instructions (spec/41_control_flow.md). In every meaning `s.pc` is `A`, the address of the
instruction; `s.advance` is the state after the provisional write. -/

namespace Sys2Proof.Machine

/-- `RET` (R170). -/
def execRet (s : State) : Result :=
  (popStack s.advance).conclude s.pc (encode .ret) fun target s => s.setPc target

/-- `JP nnn` (R171). -/
def execJp (nnn : BitVec 12) (s : State) : Result := .next (s.advance.setPc (zextAddr nnn))

/-- `CALL nnn`: the value pushed is the provisional pc (R172). -/
def execCall (nnn : BitVec 12) (s : State) : Result :=
  (pushStack s.advance.pc s.advance).conclude s.pc (encode (.call nnn)) fun _ s => s.setPc (zextAddr nnn)

/-- `SE Vx, nn` (R173). -/
def execSeByte (x : RegIdx) (nn : Byte) (s : State) : Result := .next (s.skipIf (s.v x == nn))

/-- `SNE Vx, nn` (R174). -/
def execSneByte (x : RegIdx) (nn : Byte) (s : State) : Result := .next (s.skipIf (s.v x != nn))

/-- `SE Vx, Vy` (R175). -/
def execSeReg (x y : RegIdx) (s : State) : Result := .next (s.skipIf (s.v x == s.v y))

/-- `SNE Vx, Vy` (R176). -/
def execSneReg (x y : RegIdx) (s : State) : Result := .next (s.skipIf (s.v x != s.v y))

/-- `JP V0, nnn`: the register is always `x[0]` (R177). -/
def execJpV0 (nnn : BitVec 12) (s : State) : Result := .next (s.advance.setPc (offsetTarget (s.v 0) nnn))

end Sys2Proof.Machine
end

