-- ==== Sys2Proof/Machine/DisplayInstr.lean ====
section
/-! DEFINITION. The display instructions (spec/44_display.md). -/

namespace Sys2Proof.Machine

/-- `CLS` (R240). -/
def execCls (s : State) : Result := .next (s.advance.setDisp (Bitmap.blank s.cfg.width s.cfg.height))

/-- `DRW Vx, Vy, n`: the coordinates are read, VF is set to 0, the rows are drawn, and VF gets the collision bit once at the
end; where a sprite byte lies outside memory VF stays 0 (R241, R242). -/
def execDrw (x y : RegIdx) (n : BitVec 4) (s : State) : Result :=
  (drawRows n.toNat 0 (s.v x).toNat (s.v y).toNat false (s.advance.setV vf 0)).conclude s.pc (encode (.drw x y n))
    fun collided s => s.setV vf (flagByte collided)

end Sys2Proof.Machine
end

