-- ==== Sys2Proof/Machine/IndexMemory.lean ====
section
/-! DEFINITION. Index register and memory instructions (spec/43_index_memory.md). None of them writes VF as a flag, and none
of the memory instructions changes `I` (R219). -/

namespace Sys2Proof.Machine

/-- `LD I, nnn` (R220). -/
def execLdI (nnn : BitVec 12) (s : State) : Result := .next (s.advance.setIndex (zextAddr nnn))

/-- `ADD I, Vx`: modulo 2^16, no flag (R221). -/
def execAddI (x : RegIdx) (s : State) : Result := .next (s.advance.setIndex (s.index + zextByte (s.v x)))

/-- `LD F, Vx` (R222). -/
def execLdF (x : RegIdx) (s : State) : Result := .next (s.advance.setIndex (glyphAddress (s.v x)))

/-- `LD B, Vx`: the most significant digit at `I` (R223). -/
def execLdB (x : RegIdx) (s : State) : Result :=
  (storeBytes (bcdDigits (s.v x)) s.base s.advance).conclude s.pc (encode (.ldB x)) fun _ s => s

/-- `LD [I], Vx` (R224). -/
def execLdStore (x : RegIdx) (s : State) : Result :=
  (storeBytes (s.regsUpTo x) s.base s.advance).conclude s.pc (encode (.ldStore x)) fun _ s => s

/-- `LD Vx, [I]` (R225). -/
def execLdLoad (x : RegIdx) (s : State) : Result :=
  (loadRegs (x.toNat + 1) 0 s.base s.advance).conclude s.pc (encode (.ldLoad x)) fun _ s => s

end Sys2Proof.Machine
end

