-- ==== Sys2Proof/Machine/Keys.lean ====
section
/-! DEFINITION. The key instructions and the key-wait synchronizer (spec/46_input.md). -/

namespace Sys2Proof.Machine

/-- The end of a key skip: the provisional pc stands, unless the skip is taken (R282, R283, 40_execute_cycle.md R146). -/
def keySkip (A : Addr) (taken : Bool) (s : State) : State := if taken then s.setPc (A + 4) else s

/-- `SKP Vx` (R282). -/
def execSkp (x : RegIdx) (s : State) : Result :=
  (keyIsDown (s.v x) s.advance).conclude s.pc (encode (.skp x)) fun down t => keySkip s.pc down t

/-- `SKNP Vx` (R283). -/
def execSknp (x : RegIdx) (s : State) : Result :=
  (keyIsDown (s.v x) s.advance).conclude s.pc (encode (.sknp x)) fun down t => keySkip s.pc (!down) t

/-- FX0A in RUNNING: the latch is emptied, the wait begins, pc is rolled back to `A` (R284). -/
def State.enterKeyWait (s : State) : State := ((s.setLatch none).setMode .awaitingKey).setPc s.pc

/-- FX0A in AWAITING_KEY with a latched key: the wait completes (R285). -/
def State.completeKeyWait (s : State) (x : RegIdx) (k : KeyCode) : State :=
  ((s.advance.setV x (zextKey k)).setLatch none).setMode .running

/-- `LD Vx, K` (R284, R285). A halted engine runs no instruction (60_exceptions.md R308), so the last arm, which `step` never
reaches, changes nothing (log entry 5). -/
def execLdK (x : RegIdx) (s : State) : Result :=
  match s.mode with
  | .running => .next s.enterKeyWait
  | .awaitingKey =>
    match s.latch with
    | none => .next (s.setPc s.pc)
    | some k => .next (s.completeKeyWait x k)
  | .halted => .next s

end Sys2Proof.Machine
end

