-- ==== Sys2Proof/Machine/Timers.lean ====
section
/-! DEFINITION. The timer instructions (spec/45_timers.md). -/

namespace Sys2Proof.Machine

/-- `LD Vx, DT` (R260). -/
def execLdFromDT (x : RegIdx) (s : State) : Result := .next (s.advance.setV x s.dt)

/-- `LD DT, Vx` (R261). -/
def execLdDT (x : RegIdx) (s : State) : Result := .next (s.advance.setDt (s.v x))

/-- `LD ST, Vx` (R262). -/
def execLdST (x : RegIdx) (s : State) : Result := .next (s.advance.setSt (s.v x))

end Sys2Proof.Machine
end

