-- ==== Sys2Proof/Machine/Fetch.lean ====
section
/-! DEFINITION. The part of a step before execution: the HALTED check, the fetch, the decode, and the failures they raise, in
the order of spec/60_exceptions.md R305 (40_execute_cycle.md R142 to R145, R149). -/

namespace Sys2Proof.Machine

/-- What a step has found before it executes. -/
inductive Prologue where
  /-- The step ends here. -/
  | done (r : Result)
  /-- The step executes this instruction. -/
  | run (i : Instr)

/-- Whether an instruction is `LD Vx, K`, the only one AWAITING_KEY re-presents (R149). -/
def isKeyWait : Instr → Bool
  | .ldK _ => true
  | _ => false

/-- The word at `pc` (R143). -/
def fetchWord (s : State) : Access Word := memRead16 .fetch s.pc.toNat s

/-- A fetch outside memory: the record names `A` and has no opcode, and `pc` still holds `A` (R144). -/
def State.failFetch (s : State) (index : Nat) : State := s.raise (outOfBoundsRecord s.pc none .fetch index)

/-- A word that decodes to `Unknown`: raised after the provisional write, so `pc` holds `A + 2` (R145). -/
def State.failDecode (s : State) (w : Word) : State := s.advance.raise (unknownInstructionRecord s.pc w)

/-- Decode in RUNNING (R143, R145). -/
def decodeRunning (s : State) (w : Word) : Prologue :=
  match decodeWord w with
  | some i => .run i
  | none => .done (.next (s.failDecode w))

/-- Decode in AWAITING_KEY: the word must be an FX0A; with any other the machine is stuck (R149, D13). -/
def decodeAwaiting (w : Word) : Prologue :=
  match decodeWord w with
  | some i => if isKeyWait i then .run i else .done (.fault .keyWaitBroken)
  | none => .done (.fault .keyWaitBroken)

/-- Fetch and decode by mode. A halted engine does nothing (R142); a fetch outside memory raises in either other mode
(R143, R144; log entry 5). -/
def prologue (s : State) : Prologue :=
  match s.mode with
  | .halted => .done (.next s)
  | .running =>
    match fetchWord s with
    | .ok w _ => decodeRunning s w
    | .failed _ ix _ => .done (.next (s.failFetch ix))
  | .awaitingKey =>
    match fetchWord s with
    | .ok w _ => decodeAwaiting w
    | .failed _ ix _ => .done (.next (s.failFetch ix))

/-- What the step command returns, read from the state it leaves: `none` is `Ok`, `some e` is `Err(e)` (R142, R148, R301). -/
def State.stepResult (t : State) : Option ErrRecord :=
  match t.mode with
  | .halted => t.err
  | .running => none
  | .awaitingKey => none

/-- A word stored at the program counter, big-endian, as `load` would leave it. -/
def State.placeWord (s : State) (w : Word) : State :=
  (s.poke s.pc.toNat (highByte w)).poke (s.pc.toNat + 1) (lowByte w)

end Sys2Proof.Machine
end

