-- ==== Sys2Proof/Machine/Step.lean ====
section
/-! DEFINITION. One step (spec/40_execute_cycle.md R143), and a word placed where the next step fetches it. -/

namespace Sys2Proof.Machine

/-- `step()`: the HALTED check, fetch and decode, then the instruction's meaning (R142 to R145, R149). `exec` starts from the
state before the provisional write, so that its `pc` is `A`. -/
def step (s : State) : Host.Outcome State Fault Refusal :=
  match prologue s with
  | .done r => r
  | .run i => exec i s

/-- `s` with the table's instruction word `w` stored at its program counter, where `step` fetches (log entry 7). -/
def State.withFetchWord (s : State) (nbits w : Nat) : State := s.placeWord (tableWord nbits w)

end Sys2Proof.Machine
end

