-- ==== Sys2Proof/Machine/Commands.lean ====
section
/-! DEFINITION. The host's commands and signals other than `step` (spec/40_execute_cycle.md R140), each one atomic transition
between two steps (R141, 00_scope.md R16). -/

namespace Sys2Proof.Machine

/-- `reset()`: only the configuration survives (70_reset_and_hazards.md R340, R341). The count of random draws goes on, so that
a draw after a reset is not forced to repeat one before it (log entry 3). -/
def State.resetCommand (s : State) : State := State.ofReset s.cfg s.draws

/-- Whether `bytes` fit at offset `o`: `o + s ≤ MEM_SIZE` (20_memory.md R91). -/
def loadFits (s : State) (bytes : List Byte) (o : Nat) : Bool := o + bytes.length ≤ s.cfg.memSize

/-- `load(bytes, o)`: checked before any byte is written; a load that does not fit raises `LoadTooLarge` and leaves memory
unchanged (R91, 60_exceptions.md R304). -/
def State.load (s : State) (bytes : List Byte) (o : Nat) : State :=
  if loadFits s bytes o then s.pokeBytes o bytes else s.raise (loadTooLargeRecord o bytes.length)

/-- What `load` returns: `none` is `Ok`, `some e` is `Err(e)` (R91). -/
def loadResult (s : State) (bytes : List Byte) (o : Nat) : Option ErrRecord :=
  if loadFits s bytes o then none else some (loadTooLargeRecord o bytes.length)

/-- A timer one tick later: 1 less, never below 0 (45_timers.md R264). -/
def countDown (t : Byte) : Byte := if t.toNat > 0 then t - 1 else t

/-- `tick_timers()`, in every mode (R264). -/
def State.tickTimers (s : State) : State := (s.setDt (countDown s.dt)).setSt (countDown s.st)

/-- A key's new level; a code outside 0 to 15 is ignored (46_input.md R280, R281). -/
def State.setKey (s : State) (k : Int) (down : Bool) : State :=
  if h : 0 ≤ k ∧ k ≤ 15 then { s with keys := s.keys.set k.toNat down (by omega) } else s

/-- `key_down(k)`, in every mode; the latch is not touched (R280). -/
def State.keyDown (s : State) (k : Int) : State := s.setKey k true

/-- `key_up(k)`, in every mode: the key goes up and the latch takes its code (R281, R287). -/
def State.keyUp (s : State) (k : Int) : State :=
  if 0 ≤ k ∧ k ≤ 15 then (s.setKey k false).setLatch (some (BitVec.ofNat 4 k.toNat)) else s

/-- `snapshot()`: a copy of the bitmap, row-major, in any mode; it changes no state (44_display.md R243). -/
def State.snapshot (s : State) : Bitmap := s.disp

/-- `sound_active`, 1 exactly when `ST ≠ 0` (45_timers.md R265). -/
def State.soundActive (s : State) : Bool := s.st != 0

end Sys2Proof.Machine
end

