-- ==== Sys2Proof/Machine/Session.lean ====
section
/-! DEFINITION. The host's serialized commands over the machine, with the host's duties (spec/40_execute_cycle.md R140, R141,
70_reset_and_hazards.md R342, R343). -/

namespace Sys2Proof.Machine

/-- The host's commands (R140). -/
inductive Command where
  | reset
  | load (bytes : List Byte) (o : Nat)
  | step
  | tickTimers
  | keyDown (k : Int)
  | keyUp (k : Int)
  | snapshot
  deriving DecidableEq, Repr

/-- Where the host stands in the boot sequence (70_reset_and_hazards.md R342): this is the host's state, not the CORE's
(10_state.md R29). -/
inductive Phase where
  /-- Between construction and the first reset: the machine's state is unspecified (10_state.md R57). -/
  | beforeReset
  /-- From a reset to the first step after it: the only time to load (R342). -/
  | bootWindow
  /-- After that step. -/
  | stepping
  deriving DecidableEq, Repr

/-- The machine and the host's place in the boot sequence. -/
structure Session where
  phase : Phase
  core : State
  deriving DecidableEq, Repr

/-- What a command returns to the host (R140). -/
inductive Response where
  | nothing
  | ok
  | err (e : ErrRecord)
  | bitmap (d : Bitmap)
  deriving DecidableEq, Repr

/-- What a session's command answers. -/
abbrev SessionResult := Host.Outcome Session Fault Refusal

/-- The outcome of a step, carried into the session: the boot window closes (R342). -/
def Session.afterStep (r : Result) : SessionResult :=
  match r with
  | .next t => .next ⟨.stepping, t⟩
  | .fault f => .fault f
  | .refused q => .refused q

/-- A command issued after the first reset. `load` outside the boot window is refused (R342, D24). -/
def Session.issue (c : Command) (z : Session) : SessionResult :=
  match c with
  | .reset => .next ⟨.bootWindow, z.core.resetCommand⟩
  | .load bytes o =>
    match z.phase with
    | .bootWindow => .next ⟨.bootWindow, z.core.load bytes o⟩
    | .stepping => .refused .loadOutsideBootWindow
    | .beforeReset => .refused .commandBeforeReset
  | .step => Session.afterStep (Sys2Proof.Machine.step z.core)
  | .tickTimers => .next ⟨z.phase, z.core.tickTimers⟩
  | .keyDown k => .next ⟨z.phase, z.core.keyDown k⟩
  | .keyUp k => .next ⟨z.phase, z.core.keyUp k⟩
  | .snapshot => .next z

/-- One command: before the first reset, only `reset` is accepted (10_state.md R57, D35). -/
def Session.command (c : Command) (z : Session) : SessionResult :=
  match z.phase with
  | .beforeReset => if c = .reset then Session.issue c z else .refused .commandBeforeReset
  | .bootWindow => Session.issue c z
  | .stepping => Session.issue c z

/-- `Err` of a record, `Ok` without one (R148). -/
def resultResponse (r : Option ErrRecord) : Response :=
  match r with
  | none => .ok
  | some e => .err e

/-- What the command returns, from the session before it and the session `z'` it leaves (R140). -/
def Session.response (c : Command) (z z' : Session) : Response :=
  match c with
  | .reset => .nothing
  | .load bytes o => resultResponse (loadResult z.core bytes o)
  | .step => resultResponse z'.core.stepResult
  | .tickTimers => .nothing
  | .keyDown _ => .nothing
  | .keyUp _ => .nothing
  | .snapshot => .bitmap z.core.snapshot

/-- A run: commands one at a time, in the host's order, stopping at the first that has no next session (R141, R318). -/
def Session.run : List Command → Session → SessionResult
  | [], z => .next z
  | c :: cs, z =>
    match z.command c with
    | .next z' => Session.run cs z'
    | .fault f => .fault f
    | .refused q => .refused q

end Sys2Proof.Machine
end

