-- ==== Sys2Proof/Safety.lean ====
section
/-! DEFINITION. What counts as a legal state and a safe run: the invariants the spec states of the state (spec/10_state.md R36,
R41, R50, R51, R53, R54), and the end conditions a claim may name (60_exceptions.md R318). -/

namespace Sys2Proof.Machine

/-- The word at `pc`, where both its bytes lie in memory. -/
def State.wordAtPc (s : State) : Option Word :=
  match fetchWord s with
  | .ok w _ => some w
  | .failed _ _ _ => none

/-- The instruction at `pc`, where its bytes lie in memory and decode. -/
def State.instrAtPc (s : State) : Option Instr := s.wordAtPc.bind decodeWord

/-- The stack has `CAP` entries and `0 ≤ sp ≤ CAP` (10_state.md R41). -/
def State.stackOk (s : State) : Bool := s.stack.length == s.cfg.stackCapacity && s.sp ≤ s.cfg.stackCapacity

/-- The bitmap has `H × W` pixels (R51). -/
def State.dispOk (s : State) : Bool := s.disp.length == s.cfg.height * s.cfg.width

/-- Memory is in its canonical form within `MEM_SIZE` bytes (20_memory.md R80). -/
def State.memOk (s : State) : Bool := Memory.wf s.cfg.font s.cfg.memSize s.mem

/-- The machine is HALTED exactly when it holds an error (R53, R54, 40_execute_cycle.md R150). -/
def State.errOk (s : State) : Bool := s.err.isSome == (s.mode == .halted)

/-- While the machine waits, the word at `pc` is the wait instruction (R50, 40_execute_cycle.md R149). -/
def State.waitOk (s : State) : Bool := s.mode != .awaitingKey || (s.instrAtPc.map isKeyWait).getD false

/-- A legal state. -/
def State.legal (s : State) : Bool :=
  s.cfg.wellFormed && s.stackOk && s.dispOk && s.memOk && s.errOk && s.waitOk

/-- The session's own part: in the boot window no step has run, so the machine does not wait (70_reset_and_hazards.md R342). -/
def Session.windowOk (z : Session) : Bool := z.phase != .bootWindow || z.core.mode != .awaitingKey

/-- A legal session: before the first reset the state may be anything under a legal configuration (10_state.md R57). -/
def Session.legal (z : Session) : Bool :=
  match z.phase with
  | .beforeReset => z.core.cfg.wellFormed
  | .bootWindow => z.core.legal && z.windowOk
  | .stepping => z.core.legal && z.windowOk

/-- FAULTED (60_exceptions.md R318). -/
def State.faulted (s : State) : Bool := s.mode == .halted

/-- SPINNING: RUNNING, and the word at `pc` is a jump to itself (R318). -/
def State.spinning (s : State) : Bool :=
  match s.instrAtPc with
  | some (.jp nnn) => s.mode == .running && nnn.setWidth 16 == s.pc
  | _ => false

/-- WAITING (R318). -/
def State.waiting (s : State) : Bool := s.mode == .awaitingKey

end Sys2Proof.Machine
end

