-- ==== Sys2Proof/Certificates/Slice0/Obligations.lean ====
section
/-! DEFINITION. The statements for the provers. Each docstring names the rule of spec/ it formalises and says where the
statement rests on a decision the spec marks as its own (92_eei_decisions.md D<n>) or on a log entry of the model. -/

namespace Sys2Proof.Claims

open Sys2Proof.Machine

/-- `t` differs from `s` in general registers alone, pc is the provisional `A + 2`, and every byte of memory reads as before. -/
def OnlyRegs (s t : State) : Prop :=
  t = { s with regs := t.regs, pc := s.pc + 2 } ∧ ∀ a, t.byteAt a = s.byteAt a

/-- `t` differs from `s` in `x[x]` alone, besides the provisional pc. -/
def OnlyReg (x : RegIdx) (s t : State) : Prop :=
  OnlyRegs s t ∧ ∀ k, k ≠ x → t.v k = s.v k

/-- `t` differs from `s` in `x[x]` and VF alone, besides the provisional pc. -/
def OnlyRegAndFlag (x : RegIdx) (s t : State) : Prop :=
  OnlyRegs s t ∧ ∀ k, k ≠ x → k ≠ vf → t.v k = s.v k

/-- `t` differs from `s` in `pc` alone; every byte of memory reads as before. -/
def OnlyPc (s t : State) : Prop :=
  t = { s with pc := t.pc } ∧ ∀ a, t.byteAt a = s.byteAt a

/-- A running machine whose `pc` is at or above `MEM_SIZE` fails at its next fetch (40_execute_cycle.md R144). -/
def FailsFetchOutside (t : State) : Prop :=
  t.mode = .running → t.cfg.memSize ≤ t.pc.toNat →
    step t = .next { t with
      mode := .halted, err := some ⟨.outOfBounds, t.pc, none, some .fetch, some t.pc.toNat⟩ }

/-- The words spec/30_encoding.md R116 to R120 call `Unknown`, family by family. -/
def IllegalWord (w : Word) : Prop :=
  (fieldF w = 0x0 ∧ w ≠ 0x00E0 ∧ w ≠ 0x00EE) ∨
  ((fieldF w = 0x5 ∨ fieldF w = 0x9) ∧ fieldN w ≠ 0x0) ∨
  (fieldF w = 0x8 ∧ fieldN w ∈ [0x8, 0x9, 0xA, 0xB, 0xC, 0xD, 0xF]) ∨
  (fieldF w = 0xE ∧ fieldNN w ∉ [0x9E, 0xA1]) ∨
  (fieldF w = 0xF ∧ fieldNN w ∉ [0x07, 0x0A, 0x15, 0x18, 0x1E, 0x29, 0x33, 0x55, 0x65])

/-- Digit `j` of the three decimal digits of `v`, the most significant first (43_index_memory.md R223). -/
def decimalDigit (v j : Nat) : Nat := if j = 0 then v / 100 else if j = 1 then v / 10 % 10 else v % 10

/-- Sprite bit `c` (0 is the most significant) of sprite row `r`, read at `I + r` (44_display.md R241). -/
def spriteBit (s : State) (r c : Nat) : Bool := ((s.byteAt (s.base + r)).getD 0).getLsbD (7 - c)

/-- The display row a sprite row lands on: `(cy + r) mod H` (R241). -/
def spriteRow (s : State) (y : RegIdx) (r : Nat) : Nat := ((s.v y).toNat + r) % s.cfg.height

/-- The display column a sprite bit lands on: `(cx + c) mod W` (R241). -/
def spriteCol (s : State) (x : RegIdx) (c : Nat) : Nat := ((s.v x).toNat + c) % s.cfg.width

/-- One sprite bit and the pixel it lands on. -/
structure DrawnBit where
  row : Nat
  col : Nat
  bit : Bool
  deriving DecidableEq, Repr

/-- The bits DXYN applies, in the order of R241 and R242: the rows whose byte lies in memory, ascending, each from its most to
its least significant bit. -/
def drawnBits (s : State) (x y : RegIdx) (n : BitVec 4) : List DrawnBit :=
  ((List.range n.toNat).filter fun r => s.base + r < s.cfg.memSize).flatMap fun r =>
    (List.range 8).map fun c => ⟨spriteRow s y r, spriteCol s x c, spriteBit s r c⟩

/-- Pixel `(p, q)` after `bits`, one after the other: each bit that lands on it is XORed onto what the earlier ones left
(R241, R242). -/
def pixelAfter (s : State) (bits : List DrawnBit) (p q : Nat) : Bool :=
  bits.foldl (fun on e => if e.row = p ∧ e.col = q then Bool.xor on e.bit else on) (s.pixel p q)

/-- Some bit 1 among `bits` meets a pixel that is on after the bits before it (R241, R242). -/
def Collides (s : State) (bits : List DrawnBit) : Prop :=
  ∃ k e, bits[k]? = some e ∧ e.bit = true ∧ pixelAfter s (bits.take k) e.row e.col = true

/-- The bitmap has `H × W` pixels and neither is 0 (10_state.md R51, 00_scope.md R8). -/
def HasDisplay (s : State) : Prop := s.dispOk = true ∧ 0 < s.cfg.width ∧ 0 < s.cfg.height

/-- Every byte of an `n`-row sprite lies in memory; a sprite of no rows reads none (R241). -/
def SpriteInMemory (s : State) (n : BitVec 4) : Prop := n = 0 ∨ s.base + n.toNat ≤ s.cfg.memSize

/-- The instructions that may raise (40_execute_cycle.md R151). -/
def mayRaise : Instr → Bool
  | .ret | .call _ | .drw _ _ _ | .skp _ | .sknp _ | .ldB _ | .ldStore _ | .ldLoad _ => true
  | .cls | .jp _ | .seByte _ _ | .sneByte _ _ | .seReg _ _ | .ldByte _ _ | .addByte _ _ | .ldReg _ _ | .orReg _ _
  | .andReg _ _ | .xorReg _ _ | .addReg _ _ | .subReg _ _ | .shr _ | .subn _ _ | .shl _ | .sneReg _ _ | .ldI _ | .jpV0 _
  | .rnd _ _ | .ldFromDT _ | .ldK _ | .ldDT _ | .ldST _ | .addI _ | .ldF _ => false

/-- The general registers an instruction may write (10_state.md R32). -/
def mayWrite (k : RegIdx) : Instr → Bool
  | .ldByte x _ | .addByte x _ | .ldReg x _ | .orReg x _ | .andReg x _ | .xorReg x _ | .rnd x _ | .ldFromDT x | .ldK x => k == x
  | .addReg x _ | .subReg x _ | .shr x | .subn x _ | .shl x => k == x || k == vf
  | .drw _ _ _ => k == vf
  | .ldLoad x => k.toNat ≤ x.toNat
  | .cls | .ret | .jp _ | .call _ | .seByte _ _ | .sneByte _ _ | .seReg _ _ | .sneReg _ _ | .ldI _ | .jpV0 _ | .skp _
  | .sknp _ | .ldDT _ | .ldST _ | .addI _ | .ldF _ | .ldB _ | .ldStore _ => false

/-- A host command that does not end a key wait: no release of a key 0 to 15, no reset, no load (46_input.md R286). -/
def quiet : Command → Bool
  | .step | .tickTimers | .keyDown _ | .snapshot => true
  | .keyUp k => k < 0 || 15 < k
  | .reset | .load _ _ => false

/-- Instructions executed one after the other, as the steps that fetch them would. -/
def execAll : List Instr → State → Result
  | [], s => .next s
  | i :: is, s =>
    match exec i s with
    | .next t => execAll is t
    | .fault f => .fault f
    | .refused q => .refused q

/-- Ticks, one after the other. -/
def ticks : Nat → State → State
  | 0, s => s
  | n + 1, s => ticks n s.tickTimers

end Sys2Proof.Claims

section
open Sys2Proof Sys2Proof.Machine Sys2Proof.Claims

/-! ## Encoding -/

/-- Every instruction's two bytes decode to it, with every operand at every value, whatever bytes follow (R110, R115, R126). -/
def Obligations.DecodingAnEncodedInstructionGivesItBack : Prop :=
  ∀ (i : Instr) (rest : List Byte), decodeBytes (encodeBytes i ++ rest) = .instr i rest

/-- A legal word is the encoding of the instruction it decodes to; SHR and SHL alone drop `Y` (R126). -/
def Obligations.LegalWordIsItsInstructionsEncoding : Prop :=
  ∀ (w : Word) (i : Instr), decodeWord w = some i →
    encode i = w ∨ ((∃ x, i = .shr x ∨ i = .shl x) ∧ encode i = w &&& 0xFF0F)

/-- Exactly the words of R116 to R120 decode to `Unknown`. -/
def Obligations.UnknownWordsAreExactlyTheIllegalOnes : Prop :=
  ∀ w : Word, decodeWord w = none ↔ IllegalWord w

/-- Words of the spec's encoding table and vectors, one or two a family, decode to the instructions they stand for (R125). -/
def Obligations.SampleWordsDecode : Prop :=
  decodeWord 0x00E0 = some .cls ∧ decodeWord 0x2300 = some (.call 0x300) ∧ decodeWord 0x3142 = some (.seByte 1 0x42) ∧
  decodeWord 0x9120 = some (.sneReg 1 2) ∧ decodeWord 0x8127 = some (.subn 1 2) ∧ decodeWord 0x812E = some (.shl 1) ∧
  decodeWord 0xC10F = some (.rnd 1 0x0F) ∧ decodeWord 0xA123 = some (.ldI 0x123) ∧ decodeWord 0xD012 = some (.drw 0 1 2) ∧
  decodeWord 0xE1A1 = some (.sknp 1) ∧ decodeWord 0xF30A = some (.ldK 3) ∧ decodeWord 0xF255 = some (.ldStore 2) ∧
  decodeWord 0xF118 = some (.ldST 1) ∧ decodeWord 0x5121 = none ∧ decodeWord 0x0123 = none

/-! ## The step -/

/-- Where the bytes at `pc` decode to an instruction, a RUNNING step is `exec` of it at that state, and so is an AWAITING_KEY
step where it is `LD Vx, K` (40_execute_cycle.md R143, R149). -/
def Obligations.StepRunsTheDecodedInstruction : Prop :=
  ∀ (s : State) (hi lo : Byte) (i : Instr),
    s.byteAt s.pc.toNat = some hi → s.byteAt (s.pc.toNat + 1) = some lo → decodeWord (bigEndian hi lo) = some i →
    (s.mode = .running → step s = exec i s) ∧ (s.mode = .awaitingKey → isKeyWait i = true → step s = exec i s)

/-- A step in HALTED changes no state and returns the stored error (R142). -/
def Obligations.HaltedStepReturnsTheStoredError : Prop :=
  ∀ s : State, s.mode = .halted → step s = .next s ∧ s.stepResult = s.err

/-- A fetch with a byte outside memory halts with `OutOfBounds(Fetch)` naming the first such byte; `pc` still holds `A` (R144,
R85). In AWAITING_KEY this is the model's reading of R143 (log entry 5). -/
def Obligations.FetchOutsideMemoryHalts : Prop :=
  ∀ s : State, s.mode ≠ .halted → s.cfg.memSize ≤ s.pc.toNat + 1 →
    step s = .next { s with
      mode := .halted,
      err := some ⟨.outOfBounds, s.pc, none, some .fetch,
        some (if s.cfg.memSize ≤ s.pc.toNat then s.pc.toNat else s.pc.toNat + 1)⟩ }

/-- An `Unknown` word halts with `UnknownInstruction(w, A)`; `pc` holds `A + 2` by D8 (R145, R302). -/
def Obligations.UnknownWordHalts : Prop :=
  ∀ (s : State) (hi lo : Byte),
    s.mode = .running → s.byteAt s.pc.toNat = some hi → s.byteAt (s.pc.toNat + 1) = some lo →
    decodeWord (bigEndian hi lo) = none →
    step s = .next { s with
      pc := s.pc + 2, mode := .halted,
      err := some ⟨.unknownInstruction, s.pc, some (bigEndian hi lo), none, none⟩ }

/-- A step is never refused, and it is stuck exactly in AWAITING_KEY over a fetched word that is not FX0A (R149, D13). -/
def Obligations.StepIsStuckOnlyOnABrokenKeyWait : Prop :=
  ∀ s : State, (∀ q, step s ≠ .refused q) ∧
    ((∃ f, step s = .fault f) ↔
      s.mode = .awaitingKey ∧ ∃ hi lo, s.byteAt s.pc.toNat = some hi ∧ s.byteAt (s.pc.toNat + 1) = some lo ∧
        ¬ ∃ x, decodeWord (bigEndian hi lo) = some (.ldK x))

/-- Every step keeps the state legal: stack bounds, bitmap size, canonical memory, error exactly when HALTED, and FX0A at `pc`
while waiting (10_state.md R41, R50, R51, R54). -/
def Obligations.EveryStepKeepsTheStateLegal : Prop :=
  ∀ s t : State, s.legal = true → step s = .next t → t.legal = true

/-- A step from a legal state has a next state (40_execute_cycle.md R148). -/
def Obligations.LegalStateAlwaysSteps : Prop :=
  ∀ s : State, s.legal = true → ∃ t, step s = .next t

/-- Reset leaves a legal state under every legal configuration, the default one among them. -/
def Obligations.ResetIsLegal : Prop :=
  (∀ (cfg : Config) (n : Nat), cfg.wellFormed = true → (State.ofReset cfg n).legal = true) ∧ State.reset.legal = true

/-- Reset clears registers, stack and timers, and memory holds FONT at 0 to 79 and 0x00 elsewhere (10_state.md R33, R45, R47,
20_memory.md R82). -/
def Obligations.ResetClearsRegistersStackTimersAndMemory : Prop :=
  ∀ s : State,
    (∀ k, s.resetCommand.v k = 0) ∧ s.resetCommand.sp = 0 ∧
    (∀ k, k < s.cfg.stackCapacity → s.resetCommand.stack[k]? = some 0) ∧
    s.resetCommand.dt = 0 ∧ s.resetCommand.st = 0 ∧
    (∀ a, a < s.cfg.memSize → s.resetCommand.byteAt a = some (if h : a < 80 then s.cfg.font[a] else 0))

/-- The rest of R340: `I`, `pc` (0x0200, the spec's decision D14), keys, latch, mode, err and display; the configuration
survives (R341). -/
def Obligations.ResetRestartsTheEngine : Prop :=
  ∀ s : State,
    s.resetCommand.index = 0 ∧ s.resetCommand.pc = 0x0200 ∧ (∀ k : Fin 16, s.resetCommand.keys[k] = false) ∧
    s.resetCommand.latch = none ∧ s.resetCommand.mode = .running ∧ s.resetCommand.err = none ∧
    (∀ r c, s.resetCommand.pixel r c = false) ∧ s.resetCommand.disp.length = s.cfg.height * s.cfg.width ∧
    s.resetCommand.cfg = s.cfg

/-- In SPINNING, a step changes nothing (60_exceptions.md R318, 41_control_flow.md R171). -/
def Obligations.SpinningStepChangesNothing : Prop :=
  ∀ s : State, s.spinning = true → step s = .next s

/-! ## Host commands -/

/-- Every command keeps the session legal, whatever the host does within its interface (40_execute_cycle.md R141). -/
def Obligations.EveryCommandKeepsTheSessionLegal : Prop :=
  ∀ (c : Command) (z z' : Session), z.legal = true → z.command c = .next z' → z'.legal = true

/-- Which commands a legal session refuses: all but reset before the first reset (10_state.md R57, D35), a load after the first
step (70_reset_and_hazards.md R342, D24); every other command has a next session. -/
def Obligations.SessionRefusesExactlyTheDutyBreaches : Prop :=
  ∀ (c : Command) (z : Session), z.legal = true →
    (z.phase = .beforeReset ∧ c ≠ .reset → z.command c = .refused .commandBeforeReset) ∧
    (z.phase = .stepping ∧ (∃ bytes o, c = .load bytes o) → z.command c = .refused .loadOutsideBootWindow) ∧
    (¬ (z.phase = .beforeReset ∧ c ≠ .reset) → ¬ (z.phase = .stepping ∧ ∃ bytes o, c = .load bytes o) →
      ∃ z', z.command c = .next z')

/-- `load` copies the bytes where they fit; otherwise memory is unchanged, the record is `LoadTooLarge(o, s)` and the engine
halts by D18 (20_memory.md R91). The record's address is the offset where the offset has 16 bits, and any value where it has
more (log entry 8). -/
def Obligations.LoadCopiesOrHalts : Prop :=
  ∀ (s : State) (bytes : List Byte) (o : Nat),
    (o + bytes.length ≤ s.cfg.memSize →
      loadResult s bytes o = none ∧ s.load bytes o = { s with mem := (s.load bytes o).mem } ∧
      (∀ k, k < bytes.length → (s.load bytes o).byteAt (o + k) = bytes[k]?) ∧
      (∀ a, a < o ∨ o + bytes.length ≤ a → (s.load bytes o).byteAt a = s.byteAt a)) ∧
    (s.cfg.memSize < o + bytes.length →
      (∃ address, loadResult s bytes o = some ⟨.loadTooLarge, address, none, none, some bytes.length⟩ ∧
        (o < 0x10000 → address.toNat = o)) ∧
      s.load bytes o = { s with mode := .halted, err := loadResult s bytes o } ∧
      ∀ a, (s.load bytes o).byteAt a = s.byteAt a)

/-- After `n` ticks each timer is `n` lower, never below 0, nothing else has changed, and `sound_active` is 1 exactly while ST
is not used up (45_timers.md R264, R265; in every mode by D19, the output by D26). -/
def Obligations.TicksCountTimersDownToZero : Prop :=
  ∀ (n : Nat) (s : State),
    (ticks n s).dt.toNat = s.dt.toNat - n ∧ (ticks n s).st.toNat = s.st.toNat - n ∧
    ticks n s = { s with dt := (ticks n s).dt, st := (ticks n s).st } ∧
    ((ticks n s).soundActive = true ↔ n < s.st.toNat)

/-- Key events, in every mode by D20: a code 0 to 15 sets one key's level, a release also fills the latch, any other code
changes nothing (46_input.md R280, R281). -/
def Obligations.KeyEventsSetLevelAndLatch : Prop :=
  ∀ (s : State) (k : Int),
    (0 ≤ k ∧ k ≤ 15 →
      (∀ j : Fin 16, (s.keyDown k).keys[j] = if (j.val : Int) = k then true else s.keys[j]) ∧
      s.keyDown k = { s with keys := (s.keyDown k).keys } ∧
      (∀ j : Fin 16, (s.keyUp k).keys[j] = if (j.val : Int) = k then false else s.keys[j]) ∧
      s.keyUp k = { s with keys := (s.keyUp k).keys, latch := some (BitVec.ofInt 4 k) }) ∧
    (¬ (0 ≤ k ∧ k ≤ 15) → s.keyDown k = s ∧ s.keyUp k = s)

/-- A snapshot has `H × W` elements, pixel `(r, c)` at `r * W + c` by D21 (44_display.md R243). -/
def Obligations.SnapshotIsTheBitmapRowMajor : Prop :=
  ∀ s : State, s.dispOk = true →
    s.snapshot.length = s.cfg.height * s.cfg.width ∧
    ∀ r c, r < s.cfg.height → c < s.cfg.width → s.snapshot[r * s.cfg.width + c]? = some (s.pixel r c)

/-- The key wait (46_input.md R286): from the step that first runs FX0A at `A`, `pc` stays `A` through every quiet command;
the first step after a release of key `k` gives `x[X] = k` and `pc = A + 2`. -/
def Obligations.KeyWaitHoldsUntilAKeyIsReleased : Prop :=
  ∀ (x : RegIdx) (z : Session) (cs : List Command) (k : Int),
    z.phase ≠ .beforeReset → z.core.mode = .running → z.core.instrAtPc = some (.ldK x) →
    (∀ c ∈ cs, quiet c = true) → 0 ≤ k → k ≤ 15 →
    (∃ z₁, Session.run (.step :: cs) z = .next z₁ ∧ z₁.core.pc = z.core.pc ∧ z₁.core.mode = .awaitingKey ∧
      z₁.core.latch = none) ∧
    ∃ z₂, Session.run (.step :: cs ++ [.keyUp k, .step]) z = .next z₂ ∧ ((z₂.core.v x).toNat : Int) = k ∧
      z₂.core.pc = z.core.pc + 2 ∧ z₂.core.mode = .running ∧ z₂.core.latch = none

/-! ## Rules about every instruction -/

/-- Only FX33 and FX55 change a byte of memory in a step (20_memory.md R81). -/
def Obligations.OnlyStoresChangeMemory : Prop :=
  ∀ (s t : State) (a : Nat), step s = .next t → t.byteAt a ≠ s.byteAt a →
    ∃ x, s.instrAtPc = some (.ldB x) ∨ s.instrAtPc = some (.ldStore x)

/-- Only 2NNN changes a stack entry, and only 2NNN and 00EE change `sp` (10_state.md R41, R43, R44). -/
def Obligations.OnlyCallAndRetChangeTheStack : Prop :=
  ∀ s t : State, step s = .next t →
    (t.stack ≠ s.stack → ∃ nnn, s.instrAtPc = some (.call nnn)) ∧
    (t.sp ≠ s.sp → s.instrAtPc = some .ret ∨ ∃ nnn, s.instrAtPc = some (.call nnn))

/-- A timer changes only by a tick, by FX15 or FX18, and by reset; no step counts one down (45_timers.md R263). -/
def Obligations.OnlyTicksTimerWritesAndResetChangeTimers : Prop :=
  ∀ (c : Command) (z z' : Session), z.command c = .next z' →
    (z'.core.dt ≠ z.core.dt → c = .tickTimers ∨ c = .reset ∨
      (c = .step ∧ ∃ x, z.core.instrAtPc = some (.ldDT x) ∧ z'.core.dt = z.core.v x)) ∧
    (z'.core.st ≠ z.core.st → c = .tickTimers ∨ c = .reset ∨
      (c = .step ∧ ∃ x, z.core.instrAtPc = some (.ldST x) ∧ z'.core.st = z.core.v x))

/-- A step never writes a key's level, and it changes the latch only by emptying it at an FX0A (10_state.md R48, R49). -/
def Obligations.StepsKeepKeysAndOnlyTheKeyWaitEmptiesTheLatch : Prop :=
  ∀ s t : State, step s = .next t →
    t.keys = s.keys ∧ (t.latch ≠ s.latch → t.latch = none ∧ ∃ x, s.instrAtPc = some (.ldK x))

/-- Only 00E0 and DXYN change the display in a step (10_state.md R51, 44_display.md R244). -/
def Obligations.OnlyClearAndDrawChangeTheDisplay : Prop :=
  ∀ s t : State, step s = .next t → t.disp ≠ s.disp →
    s.instrAtPc = some .cls ∨ ∃ x y n, s.instrAtPc = some (.drw x y n)

/-- A step changes a general register only by an instruction that R32 lists as writing it. -/
def Obligations.OnlyListedInstructionsWriteARegister : Prop :=
  ∀ (s t : State) (k : RegIdx), step s = .next t → t.v k ≠ s.v k →
    ∃ i, s.instrAtPc = some i ∧ mayWrite k i = true

/-- A step changes `I` only by ANNN, FX1E or FX29; FX55 and FX65 leave it by D7 (10_state.md R40). -/
def Obligations.OnlyIndexInstructionsWriteTheIndex : Prop :=
  ∀ s t : State, step s = .next t → t.index ≠ s.index →
    (∃ nnn, s.instrAtPc = some (.ldI nnn)) ∨ ∃ x, s.instrAtPc = some (.addI x) ∨ s.instrAtPc = some (.ldF x)

/-- A step that enters HALTED raised one of exactly the failures of R151, and an instruction R151 does not list completes on
every input. -/
def Obligations.StepRaisesOnlyTheListedFailures : Prop :=
  ∀ s : State, s.mode ≠ .halted →
    (∀ t, step s = .next t → t.mode = .halted → ∃ e, t.err = some e ∧
      ((s.wordAtPc = none ∧ e.kind = .outOfBounds ∧ e.space = some .fetch) ∨
       (∃ w, s.wordAtPc = some w ∧ decodeWord w = none ∧ e.kind = .unknownInstruction) ∨
       (∃ i, s.instrAtPc = some i ∧ mayRaise i = true ∧ e.kind = .outOfBounds ∧
        ∃ sp ∈ [Space.memRead, .memWrite, .stackOverflow, .stackUnderflow, .key], e.space = some sp))) ∧
    ∀ i, mayRaise i = false → ∃ t, exec i s = .next t ∧ t.mode ≠ .halted ∧ t.err = s.err

/-- The mode transitions of R53 and no other, over every command of a legal session. -/
def Obligations.ModeTransitionsAreTheListedOnes : Prop :=
  ∀ (c : Command) (z z' : Session), z.legal = true → z.phase ≠ .beforeReset → z.command c = .next z' →
    (c = .reset → z'.core.mode = .running) ∧
    (c ≠ .reset → z'.core.mode ≠ z.core.mode →
      (z.core.mode = .running ∧ z'.core.mode = .awaitingKey ∧ c = .step ∧ ∃ x, z.core.instrAtPc = some (.ldK x)) ∨
      (z.core.mode = .awaitingKey ∧ z'.core.mode = .running ∧ c = .step ∧
        ∃ x k, z.core.instrAtPc = some (.ldK x) ∧ z.core.latch = some k) ∨
      (z.core.mode = .running ∧ z'.core.mode = .halted ∧ z'.core.err.isSome = true ∧
        (c = .step ∨ ∃ bytes o, c = .load bytes o)))

/-- No command changes the configuration (00_scope.md R7, 70_reset_and_hazards.md R341). -/
def Obligations.NoCommandChangesTheConfiguration : Prop :=
  ∀ (c : Command) (z z' : Session), z.command c = .next z' → z'.core.cfg = z.core.cfg

/-- No instruction reads `ST`: the same step with another `ST` leaves the same state but for `ST` (10_state.md R46). -/
def Obligations.NoStepReadsTheSoundTimer : Prop :=
  ∀ (s t : State) (b : Byte), step s = .next t →
    ∃ u, step { s with st := b } = .next u ∧ { u with st := t.st } = t

/-- A program sees the display only through the collision bit of DXYN: the same step with another display leaves the same state
but for the display and, after DXYN alone, VF (44_display.md R244). -/
def Obligations.OnlyDrawSeesTheDisplay : Prop :=
  ∀ (s t : State) (d : Bitmap), step s = .next t →
    ∃ u, step { s with disp := d } = .next u ∧
      ({ u with disp := t.disp } = t ∨
       ((∃ x y n, s.instrAtPc = some (.drw x y n)) ∧ { u with disp := t.disp, regs := t.regs } = t ∧
        ∀ k, k ≠ vf → u.v k = t.v k))

/-! ## Memory -/

/-- The 16-bit accesses round-trip both ways, big-endian, at every address with both bytes in memory (20_memory.md R98). -/
def Obligations.SixteenBitAccessesRoundTrip : Prop :=
  ∀ (s : State) (a : Nat), a + 1 < s.cfg.memSize →
    (∀ v : Word, ∃ t, memWrite16 a v s = .ok () t ∧ memRead16 .memRead a t = .ok v t) ∧
    ∃ v, memRead16 .memRead a s = .ok v s ∧
      ∃ t, memWrite16 a v s = .ok () t ∧ ∀ k, t.byteAt k = s.byteAt k

/-! ## Control flow -/

/-- RET pops into `pc`; on an empty stack it raises `OutOfBounds(StackUnderflow)` with `pc = A + 2` (41_control_flow.md R170,
10_state.md R44; the failure by D9, its pc by D8). -/
def Obligations.RetPopsTheReturnAddress : Prop :=
  ∀ s : State,
    (∀ target, s.sp ≠ 0 → s.stack[s.sp - 1]? = some target →
      exec .ret s = .next { s with pc := target, sp := s.sp - 1 }) ∧
    (s.sp = 0 → exec .ret s = .next { s with
      pc := s.pc + 2, mode := .halted,
      err := some ⟨.outOfBounds, s.pc, some 0x00EE, some .stackUnderflow, some 0⟩ })

/-- CALL pushes `A + 2` and jumps; on a full stack it raises `OutOfBounds(StackOverflow)` and pushes nothing (R172, 10_state.md
R43; the failure by D9, its pc by D8). -/
def Obligations.CallPushesTheReturnAddress : Prop :=
  ∀ (nnn : BitVec 12) (s : State), s.stackOk = true →
    (s.sp < s.cfg.stackCapacity → ∃ t, exec (.call nnn) s = .next t ∧
      t = { s with pc := t.pc, stack := t.stack, sp := s.sp + 1 } ∧ t.pc.toNat = nnn.toNat ∧
      t.stack[s.sp]? = some (s.pc + 2) ∧ (∀ k, k ≠ s.sp → t.stack[k]? = s.stack[k]?) ∧
      ∀ a, t.byteAt a = s.byteAt a) ∧
    (s.sp = s.cfg.stackCapacity → exec (.call nnn) s = .next { s with
      pc := s.pc + 2, mode := .halted,
      err := some ⟨.outOfBounds, s.pc, some (0x2#4 ++ nnn), some .stackOverflow, some s.cfg.stackCapacity⟩ })

/-- Nested calls and as many returns come back to the instruction after the outermost call, with `sp` and every older stack
entry as before, for as many calls as the stack has room for (90_conflicts.md C8, 95_test_vectors.md L1-6). -/
def Obligations.NestedCallsReturnAfterTheOutermost : Prop :=
  ∀ (s : State) (targets : List (BitVec 12)), s.stackOk = true → targets ≠ [] →
    s.sp + targets.length ≤ s.cfg.stackCapacity →
    ∃ t, execAll (targets.map Instr.call ++ List.replicate targets.length .ret) s = .next t ∧
      t.pc = s.pc + 2 ∧ t = { s with pc := t.pc, stack := t.stack } ∧
      ∀ k, k < s.sp → t.stack[k]? = s.stack[k]?

/-- JP and JP V0 write `pc` alone (R171, R177); the register of BNNN is always `x[0]`; a jump to itself changes nothing. That
an odd target is taken like any other is the spec's decision D2 (10_state.md R36; log entry 14). That a target outside memory
fails at the next fetch is R144, and the halted state it leaves, `pc` kept and a record without opcode, rests on R150 with D8
and D18 (log entry 16). -/
def Obligations.JumpsWriteTheTarget : Prop :=
  ∀ (nnn : BitVec 12) (s : State),
    decodeWord (0x1#4 ++ nnn) = some (.jp nnn) ∧ decodeWord (0xB#4 ++ nnn) = some (.jpV0 nnn) ∧
    (∃ t, exec (.jp nnn) s = .next t ∧ OnlyPc s t ∧ t.pc.toNat = nnn.toNat ∧ FailsFetchOutside t ∧
      (s.mode = .running → s.instrAtPc = some (.jp nnn) → nnn.toNat = s.pc.toNat →
        t = s ∧ step s = .next s ∧ s.stepResult = none)) ∧
    ∃ t, exec (.jpV0 nnn) s = .next t ∧ OnlyPc s t ∧ t.pc.toNat = (s.v 0).toNat + nnn.toNat ∧ FailsFetchOutside t

/-- SE and SNE with a byte write `pc` alone: `A + 4` when the comparison holds, else `A + 2` (R173, R174). -/
def Obligations.ByteSkipsCompareTheRegister : Prop :=
  ∀ (x : RegIdx) (nn : Byte) (s : State),
    decodeWord (0x3#4 ++ x ++ nn) = some (.seByte x nn) ∧ decodeWord (0x4#4 ++ x ++ nn) = some (.sneByte x nn) ∧
    (∃ t, exec (.seByte x nn) s = .next t ∧ OnlyPc s t ∧ t.pc = if s.v x = nn then s.pc + 4 else s.pc + 2) ∧
    ∃ t, exec (.sneByte x nn) s = .next t ∧ OnlyPc s t ∧ t.pc = if s.v x ≠ nn then s.pc + 4 else s.pc + 2

/-- SE and SNE with two registers likewise; a low nibble other than 0 is illegal (R175, R176). -/
def Obligations.RegisterSkipsCompareTheRegisters : Prop :=
  ∀ (x y : RegIdx) (s : State),
    (∀ n : BitVec 4, decodeWord (0x5#4 ++ x ++ y ++ n) = if n = 0 then some (.seReg x y) else none) ∧
    (∀ n : BitVec 4, decodeWord (0x9#4 ++ x ++ y ++ n) = if n = 0 then some (.sneReg x y) else none) ∧
    (∃ t, exec (.seReg x y) s = .next t ∧ OnlyPc s t ∧ t.pc = if s.v x = s.v y then s.pc + 4 else s.pc + 2) ∧
    ∃ t, exec (.sneReg x y) s = .next t ∧ OnlyPc s t ∧ t.pc = if s.v x ≠ s.v y then s.pc + 4 else s.pc + 2

/-! ## Register loads and the ALU -/

/-- LD Vx, nn and ADD Vx, nn write `x[X]` alone; the sum wraps and leaves no flag (42_alu.md R192, R193). -/
def Obligations.ByteLoadAndAddWriteOneRegister : Prop :=
  ∀ (x : RegIdx) (nn : Byte) (s : State),
    decodeWord (0x6#4 ++ x ++ nn) = some (.ldByte x nn) ∧ decodeWord (0x7#4 ++ x ++ nn) = some (.addByte x nn) ∧
    (∃ t, exec (.ldByte x nn) s = .next t ∧ OnlyReg x s t ∧ t.v x = nn) ∧
    ∃ t, exec (.addByte x nn) s = .next t ∧ OnlyReg x s t ∧ (t.v x).toNat = ((s.v x).toNat + nn.toNat) % 256

/-- LD, OR, AND and XOR of two registers write `x[X]` alone, bit by bit; VF is not touched unless `X = 15` (R194 to R197). -/
def Obligations.CopyAndLogicWriteOneRegister : Prop :=
  ∀ (x y : RegIdx) (s : State),
    decodeWord (0x8#4 ++ x ++ y ++ 0x0#4) = some (.ldReg x y) ∧ decodeWord (0x8#4 ++ x ++ y ++ 0x1#4) = some (.orReg x y) ∧
    decodeWord (0x8#4 ++ x ++ y ++ 0x2#4) = some (.andReg x y) ∧ decodeWord (0x8#4 ++ x ++ y ++ 0x3#4) = some (.xorReg x y) ∧
    (∃ t, exec (.ldReg x y) s = .next t ∧ OnlyReg x s t ∧ t.v x = s.v y) ∧
    (∃ t, exec (.orReg x y) s = .next t ∧ OnlyReg x s t ∧
      ∀ j, (t.v x).getLsbD j = ((s.v x).getLsbD j || (s.v y).getLsbD j)) ∧
    (∃ t, exec (.andReg x y) s = .next t ∧ OnlyReg x s t ∧
      ∀ j, (t.v x).getLsbD j = ((s.v x).getLsbD j && (s.v y).getLsbD j)) ∧
    ∃ t, exec (.xorReg x y) s = .next t ∧ OnlyReg x s t ∧
      ∀ j, (t.v x).getLsbD j = Bool.xor ((s.v x).getLsbD j) ((s.v y).getLsbD j)

/-- ADD Vx, Vy: the sum modulo 256, VF the carry of the operands before the instruction (R198). That VF holds the flag when
`X = 15` is the spec's decision D6 (R191). -/
def Obligations.AddRegistersSetsTheCarry : Prop :=
  ∀ (x y : RegIdx) (s : State), ∃ t, exec (.addReg x y) s = .next t ∧ OnlyRegAndFlag x s t ∧
    (x ≠ vf → (t.v x).toNat = ((s.v x).toNat + (s.v y).toNat) % 256) ∧
    t.v vf = if 255 < (s.v x).toNat + (s.v y).toNat then 1 else 0

/-- SUB and SUBN: the difference modulo 256, VF 1 exactly when there is no borrow, equality included (R199, R201; D6 when
`X = 15`). -/
def Obligations.SubtractionsSetNotBorrow : Prop :=
  ∀ (x y : RegIdx) (s : State),
    (∃ t, exec (.subReg x y) s = .next t ∧ OnlyRegAndFlag x s t ∧
      (x ≠ vf → ((t.v x).toNat : Int) = ((s.v x).toNat - (s.v y).toNat : Int) % 256) ∧
      t.v vf = if (s.v y).toNat ≤ (s.v x).toNat then 1 else 0) ∧
    ∃ t, exec (.subn x y) s = .next t ∧ OnlyRegAndFlag x s t ∧
      (x ≠ vf → ((t.v x).toNat : Int) = ((s.v y).toNat - (s.v x).toNat : Int) % 256) ∧
      t.v vf = if (s.v x).toNat ≤ (s.v y).toNat then 1 else 0

/-- SHR and SHL: halved, or doubled modulo 256, VF the bit shifted out; every `Y` selects the same instruction (R200, R202; D6
when `X = 15`). -/
def Obligations.ShiftsSetTheBitShiftedOut : Prop :=
  ∀ (x y : RegIdx) (s : State),
    decodeWord (0x8#4 ++ x ++ y ++ 0x6#4) = some (.shr x) ∧ decodeWord (0x8#4 ++ x ++ y ++ 0xE#4) = some (.shl x) ∧
    (∃ t, exec (.shr x) s = .next t ∧ OnlyRegAndFlag x s t ∧
      (x ≠ vf → (t.v x).toNat = (s.v x).toNat / 2) ∧ (t.v vf).toNat = (s.v x).toNat % 2) ∧
    ∃ t, exec (.shl x) s = .next t ∧ OnlyRegAndFlag x s t ∧
      (x ≠ vf → (t.v x).toNat = 2 * (s.v x).toNat % 256) ∧ (t.v vf).toNat = (s.v x).toNat / 128

/-- RND: the draw masked with `NN`, for whatever byte the free value `Config.randomByte` gives (R210, R211, D16; log entry 3);
the draw is used up. -/
def Obligations.RandomByteIsMasked : Prop :=
  ∀ (x : RegIdx) (nn : Byte) (s : State),
    decodeWord (0xC#4 ++ x ++ nn) = some (.rnd x nn) ∧
    ∃ t, exec (.rnd x nn) s = .next t ∧ t = { s with regs := t.regs, pc := s.pc + 2, draws := s.draws + 1 } ∧
      (∀ k, k ≠ x → t.v k = s.v k) ∧ (∀ a, t.byteAt a = s.byteAt a) ∧
      ∀ j, (t.v x).getLsbD j = ((Config.randomByte s.draws).getLsbD j && nn.getLsbD j)

/-! ## Index register and memory instructions -/

/-- LD I and LD F write `I` alone, and the register of LD F is not masked (43_index_memory.md R220, R222). -/
def Obligations.IndexLoadsWriteTheIndex : Prop :=
  ∀ (nnn : BitVec 12) (x : RegIdx) (s : State),
    decodeWord (0xA#4 ++ nnn) = some (.ldI nnn) ∧ decodeWord (0xF#4 ++ x ++ 0x29#8) = some (.ldF x) ∧
    (∃ t, exec (.ldI nnn) s = .next t ∧ t = { s with index := t.index, pc := s.pc + 2 } ∧ t.index.toNat = nnn.toNat ∧
      ∀ a, t.byteAt a = s.byteAt a) ∧
    ∃ t, exec (.ldF x) s = .next t ∧ t = { s with index := t.index, pc := s.pc + 2 } ∧
      t.index.toNat = (s.v x).toNat * 5 ∧ ∀ a, t.byteAt a = s.byteAt a

/-- ADD I writes `I` alone, modulo 2^16, and no flag, by D4 (R221). -/
def Obligations.IndexAddWrapsWithoutAFlag : Prop :=
  ∀ (x : RegIdx) (s : State), ∃ t, exec (.addI x) s = .next t ∧ t = { s with index := t.index, pc := s.pc + 2 } ∧
    t.index.toNat = (s.index.toNat + (s.v x).toNat) % 65536 ∧ (∀ a, t.byteAt a = s.byteAt a)

/-- LD B stores the three decimal digits at `I`, `I + 1`, `I + 2`, hundreds first by D31; where one lies outside memory it
raises with the digits before it stored (R223; D8). -/
def Obligations.BcdStoresThreeDigits : Prop :=
  ∀ (x : RegIdx) (s : State), ∃ t, exec (.ldB x) s = .next t ∧
    (∀ j, j < 3 → s.base + j < s.cfg.memSize →
      (t.byteAt (s.base + j)).map BitVec.toNat = some (decimalDigit (s.v x).toNat j)) ∧
    (∀ a, ¬ (s.base ≤ a ∧ a < s.base + 3) → t.byteAt a = s.byteAt a) ∧
    (s.base + 2 < s.cfg.memSize → t = { s with mem := t.mem, pc := s.pc + 2 }) ∧
    (s.cfg.memSize ≤ s.base + 2 → t = { s with
      mem := t.mem, pc := s.pc + 2, mode := .halted,
      err := some ⟨.outOfBounds, s.pc, some (0xF#4 ++ x ++ 0x33#8), some .memWrite, some (max s.base s.cfg.memSize)⟩ })

/-- LD [I], Vx stores `x[0]` to `x[X]` at `I` to `I + X`, `I` unchanged by D7; where an address lies outside memory it raises
with the bytes before it stored (R224; D8). -/
def Obligations.RegisterStoreCopiesUpToX : Prop :=
  ∀ (x : RegIdx) (s : State), ∃ t, exec (.ldStore x) s = .next t ∧
    (∀ k : RegIdx, k.toNat ≤ x.toNat → s.base + k.toNat < s.cfg.memSize → t.byteAt (s.base + k.toNat) = some (s.v k)) ∧
    (∀ a, ¬ (s.base ≤ a ∧ a ≤ s.base + x.toNat) → t.byteAt a = s.byteAt a) ∧
    (s.base + x.toNat < s.cfg.memSize → t = { s with mem := t.mem, pc := s.pc + 2 }) ∧
    (s.cfg.memSize ≤ s.base + x.toNat → t = { s with
      mem := t.mem, pc := s.pc + 2, mode := .halted,
      err := some ⟨.outOfBounds, s.pc, some (0xF#4 ++ x ++ 0x55#8), some .memWrite, some (max s.base s.cfg.memSize)⟩ })

/-- LD Vx, [I] loads `x[0]` to `x[X]` from `I` to `I + X`, `I` unchanged by D7; where an address lies outside memory it raises
with the registers before it loaded (R225; D8). -/
def Obligations.RegisterLoadCopiesUpToX : Prop :=
  ∀ (x : RegIdx) (s : State), ∃ t, exec (.ldLoad x) s = .next t ∧
    (∀ k : RegIdx, k.toNat ≤ x.toNat → s.base + k.toNat < s.cfg.memSize → s.byteAt (s.base + k.toNat) = some (t.v k)) ∧
    (∀ k : RegIdx, x.toNat < k.toNat ∨ s.cfg.memSize ≤ s.base + k.toNat → t.v k = s.v k) ∧
    (∀ a, t.byteAt a = s.byteAt a) ∧
    (s.base + x.toNat < s.cfg.memSize → t = { s with regs := t.regs, pc := s.pc + 2 }) ∧
    (s.cfg.memSize ≤ s.base + x.toNat → t = { s with
      regs := t.regs, pc := s.pc + 2, mode := .halted,
      err := some ⟨.outOfBounds, s.pc, some (0xF#4 ++ x ++ 0x65#8), some .memRead, some (max s.base s.cfg.memSize)⟩ })

/-- Registers stored and loaded again from the same `I` come back, whatever the registers held in between (R224, R225). -/
def Obligations.StoredRegistersLoadBack : Prop :=
  ∀ (x : RegIdx) (s : State) (other : Vector Byte 16), s.base + x.toNat < s.cfg.memSize →
    ∃ t u, exec (.ldStore x) s = .next t ∧ exec (.ldLoad x) { t with regs := other } = .next u ∧
      ∀ k : RegIdx, k.toNat ≤ x.toNat → u.v k = s.v k

/-! ## Display -/

/-- CLS turns every pixel off and changes nothing else; a snapshot after it is all zero, `H × W` elements (44_display.md R240). -/
def Obligations.ClearTurnsEveryPixelOff : Prop :=
  decodeWord 0x00E0 = some .cls ∧
  ∀ s : State, ∃ t, exec .cls s = .next t ∧ t = { s with disp := t.disp, pc := s.pc + 2 } ∧
    (∀ r c, t.pixel r c = false) ∧ t.snapshot = List.replicate (s.cfg.height * s.cfg.width) false ∧
    ∀ a, t.byteAt a = s.byteAt a

/-- DRW on every display, with every sprite byte in memory: the sprite bits are XORed onto their wrapped pixels one by one, each
seeing what the earlier ones left (D22), VF is 1 exactly when a bit 1 met a pixel that was on, and nothing else changes (R241,
R242). Where no two bits share a pixel (`8 ≤ W` and `N ≤ H`), each bit is XORed onto its own pixel and only the pixels before
the instruction count. That the coordinates of `X = 15` or `Y = 15` are read before VF is reset is D23. -/
def Obligations.DrawXorsTheSpriteAndReportsCollision : Prop :=
  ∀ (x y : RegIdx) (n : BitVec 4) (s : State), HasDisplay s → SpriteInMemory s n →
    ∃ t, exec (.drw x y n) s = .next t ∧
      t = { s with regs := t.regs, disp := t.disp, pc := s.pc + 2 } ∧ (∀ a, t.byteAt a = s.byteAt a) ∧
      (∀ k, k ≠ vf → t.v k = s.v k) ∧ t.disp.length = s.disp.length ∧
      (∀ p q, p < s.cfg.height → q < s.cfg.width → t.pixel p q = pixelAfter s (drawnBits s x y n) p q) ∧
      (Collides s (drawnBits s x y n) → t.v vf = 1) ∧ (¬ Collides s (drawnBits s x y n) → t.v vf = 0) ∧
      (8 ≤ s.cfg.width → n.toNat ≤ s.cfg.height →
        (∀ r c, r < n.toNat → c < 8 →
          t.pixel (spriteRow s y r) (spriteCol s x c) =
            Bool.xor (s.pixel (spriteRow s y r) (spriteCol s x c)) (spriteBit s r c)) ∧
        (∀ p q, p < s.cfg.height → q < s.cfg.width →
          (∀ r c, r < n.toNat → c < 8 → ¬ (p = spriteRow s y r ∧ q = spriteCol s x c)) → t.pixel p q = s.pixel p q) ∧
        ((∃ r c, r < n.toNat ∧ c < 8 ∧ spriteBit s r c = true ∧ s.pixel (spriteRow s y r) (spriteCol s x c) = true) →
          t.v vf = 1) ∧
        ((∀ r c, r < n.toNat → c < 8 →
            ¬ (spriteBit s r c = true ∧ s.pixel (spriteRow s y r) (spriteCol s x c) = true)) →
          t.v vf = 0))

/-- DRW on every display: with every sprite byte in memory it completes, changing VF, pixels and `pc` alone, and with `n = 0` no
pixel and VF = 0; with a byte outside it raises at the first one, VF is 0, the rows before that byte stay drawn and every other
pixel stays (R241, R150; D8). -/
def Obligations.DrawCompletesOrHalts : Prop :=
  ∀ (x y : RegIdx) (n : BitVec 4) (s : State), ∃ t, exec (.drw x y n) s = .next t ∧
    (∀ a, t.byteAt a = s.byteAt a) ∧ (∀ k, k ≠ vf → t.v k = s.v k) ∧ t.disp.length = s.disp.length ∧
    (n = 0 → t.v vf = 0 ∧ t.disp = s.disp) ∧ (t.v vf = 0 ∨ t.v vf = 1) ∧
    (SpriteInMemory s n → t = { s with regs := t.regs, disp := t.disp, pc := s.pc + 2 }) ∧
    (n ≠ 0 → s.cfg.memSize < s.base + n.toNat →
      (t.v vf = 0 ∧ t = { s with
        regs := t.regs, disp := t.disp, pc := s.pc + 2, mode := .halted,
        err := some ⟨.outOfBounds, s.pc, some (0xD#4 ++ x ++ y ++ n), some .memRead, some (max s.base s.cfg.memSize)⟩ }) ∧
      (HasDisplay s → ∀ p q, p < s.cfg.height → q < s.cfg.width →
        t.pixel p q = pixelAfter s (drawnBits s x y n) p q) ∧
      (HasDisplay s → 8 ≤ s.cfg.width → n.toNat ≤ s.cfg.height →
        (∀ r c, r < n.toNat → c < 8 → s.base + r < s.cfg.memSize →
          t.pixel (spriteRow s y r) (spriteCol s x c) =
            Bool.xor (s.pixel (spriteRow s y r) (spriteCol s x c)) (spriteBit s r c)) ∧
        (∀ p q, p < s.cfg.height → q < s.cfg.width →
          (∀ r c, r < n.toNat → c < 8 → s.base + r < s.cfg.memSize → ¬ (p = spriteRow s y r ∧ q = spriteCol s x c)) →
          t.pixel p q = s.pixel p q)))

/-- A sprite drawn twice at the same place leaves the display as it was, on every display (R241, 95_test_vectors.md L1-7; D22
where bits share a pixel). The coordinates are not VF, which the first draw writes. -/
def Obligations.DrawingTwiceRestoresTheDisplay : Prop :=
  ∀ (x y : RegIdx) (n : BitVec 4) (s : State), x ≠ vf → y ≠ vf → HasDisplay s → SpriteInMemory s n →
    ∃ t u, exec (.drw x y n) s = .next t ∧ exec (.drw x y n) t = .next u ∧ u.disp = s.disp

/-! ## Timers and keys -/

/-- FX07 writes `x[X]` alone, FX15 writes `DT` alone (a 0 stops the countdown at once), FX18 writes `ST` alone (45_timers.md
R260, R261, R262). -/
def Obligations.TimerInstructionsCopyATimer : Prop :=
  ∀ (x : RegIdx) (s : State),
    decodeWord (0xF#4 ++ x ++ 0x07#8) = some (.ldFromDT x) ∧ decodeWord (0xF#4 ++ x ++ 0x15#8) = some (.ldDT x) ∧
    decodeWord (0xF#4 ++ x ++ 0x18#8) = some (.ldST x) ∧
    (∃ t, exec (.ldFromDT x) s = .next t ∧ OnlyReg x s t ∧ t.v x = s.dt) ∧
    (∃ t, exec (.ldDT x) s = .next t ∧ t = { s with dt := s.v x, pc := s.pc + 2 } ∧ (∀ a, t.byteAt a = s.byteAt a) ∧
      (s.v x = 0 → t.tickTimers.dt = 0)) ∧
    ∃ t, exec (.ldST x) s = .next t ∧ t = { s with st := s.v x, pc := s.pc + 2 } ∧ ∀ a, t.byteAt a = s.byteAt a

/-- SKP and SKNP write `pc` alone by the level of key `x[X]`; a code above 15 raises `OutOfBounds(Key)` by D11, with
`pc = A + 2` (46_input.md R282, R283). -/
def Obligations.KeySkipsReadTheKeyLevel : Prop :=
  ∀ (x : RegIdx) (s : State),
    (∀ k : Fin 16, (s.v x).toNat = k.val →
      (∃ t, exec (.skp x) s = .next t ∧ OnlyPc s t ∧ t.pc = if s.keys[k] = true then s.pc + 4 else s.pc + 2) ∧
      ∃ t, exec (.sknp x) s = .next t ∧ OnlyPc s t ∧ t.pc = if s.keys[k] = false then s.pc + 4 else s.pc + 2) ∧
    (15 < (s.v x).toNat →
      exec (.skp x) s = .next { s with
        pc := s.pc + 2, mode := .halted,
        err := some ⟨.outOfBounds, s.pc, some (0xE#4 ++ x ++ 0x9E#8), some .key, some (s.v x).toNat⟩ } ∧
      exec (.sknp x) s = .next { s with
        pc := s.pc + 2, mode := .halted,
        err := some ⟨.outOfBounds, s.pc, some (0xE#4 ++ x ++ 0xA1#8), some .key, some (s.v x).toNat⟩ })

/-- LD Vx, K: in RUNNING the wait begins with the latch emptied by D12 and `pc` at the instruction; in AWAITING_KEY it stalls on
an empty latch, and completes on a full one (R284, R285). -/
def Obligations.KeyWaitEntersStallsAndCompletes : Prop :=
  ∀ (x : RegIdx) (s : State),
    decodeWord (0xF#4 ++ x ++ 0x0A#8) = some (.ldK x) ∧
    (s.mode = .running → exec (.ldK x) s = .next { s with mode := .awaitingKey, latch := none }) ∧
    (s.mode = .awaitingKey → s.latch = none → exec (.ldK x) s = .next s) ∧
    (∀ k, s.mode = .awaitingKey → s.latch = some k → ∃ t, exec (.ldK x) s = .next t ∧
      t = { s with regs := t.regs, pc := s.pc + 2, latch := none, mode := .running } ∧
      (t.v x).toNat = k.toNat ∧ (∀ j, j ≠ x → t.v j = s.v j) ∧ ∀ a, t.byteAt a = s.byteAt a)

end
end

