-- ==== Sys2Proof/Laws/State.lean ====
section
/-! SUPPORT. One lemma per field per update of the state, true by rfl, and the reads `v`, `byteAt`, `pixel` through each update. -/

namespace Sys2Proof.Machine

variable (s : State)

/-! ### setV -/

@[simp] theorem State.setV_regs (x : RegIdx) (b : Byte) : (s.setV x b).regs = s.regs.set x.toNat b x.isLt := rfl
@[simp] theorem State.setV_index (x : RegIdx) (b : Byte) : (s.setV x b).index = s.index := rfl
@[simp] theorem State.setV_pc (x : RegIdx) (b : Byte) : (s.setV x b).pc = s.pc := rfl
@[simp] theorem State.setV_stack (x : RegIdx) (b : Byte) : (s.setV x b).stack = s.stack := rfl
@[simp] theorem State.setV_sp (x : RegIdx) (b : Byte) : (s.setV x b).sp = s.sp := rfl
@[simp] theorem State.setV_dt (x : RegIdx) (b : Byte) : (s.setV x b).dt = s.dt := rfl
@[simp] theorem State.setV_st (x : RegIdx) (b : Byte) : (s.setV x b).st = s.st := rfl
@[simp] theorem State.setV_keys (x : RegIdx) (b : Byte) : (s.setV x b).keys = s.keys := rfl
@[simp] theorem State.setV_latch (x : RegIdx) (b : Byte) : (s.setV x b).latch = s.latch := rfl
@[simp] theorem State.setV_mode (x : RegIdx) (b : Byte) : (s.setV x b).mode = s.mode := rfl
@[simp] theorem State.setV_err (x : RegIdx) (b : Byte) : (s.setV x b).err = s.err := rfl
@[simp] theorem State.setV_disp (x : RegIdx) (b : Byte) : (s.setV x b).disp = s.disp := rfl
@[simp] theorem State.setV_mem (x : RegIdx) (b : Byte) : (s.setV x b).mem = s.mem := rfl
@[simp] theorem State.setV_cfg (x : RegIdx) (b : Byte) : (s.setV x b).cfg = s.cfg := rfl
@[simp] theorem State.setV_draws (x : RegIdx) (b : Byte) : (s.setV x b).draws = s.draws := rfl
@[simp] theorem State.setV_byteAt (x : RegIdx) (b : Byte) (k : Nat) : (s.setV x b).byteAt k = s.byteAt k := rfl
@[simp] theorem State.setV_pixel (x : RegIdx) (b : Byte) (r c : Nat) : (s.setV x b).pixel r c = s.pixel r c := rfl

/-! ### setIndex -/

@[simp] theorem State.setIndex_regs (a : Addr) : (s.setIndex a).regs = s.regs := rfl
@[simp] theorem State.setIndex_index (a : Addr) : (s.setIndex a).index = a := rfl
@[simp] theorem State.setIndex_pc (a : Addr) : (s.setIndex a).pc = s.pc := rfl
@[simp] theorem State.setIndex_stack (a : Addr) : (s.setIndex a).stack = s.stack := rfl
@[simp] theorem State.setIndex_sp (a : Addr) : (s.setIndex a).sp = s.sp := rfl
@[simp] theorem State.setIndex_dt (a : Addr) : (s.setIndex a).dt = s.dt := rfl
@[simp] theorem State.setIndex_st (a : Addr) : (s.setIndex a).st = s.st := rfl
@[simp] theorem State.setIndex_keys (a : Addr) : (s.setIndex a).keys = s.keys := rfl
@[simp] theorem State.setIndex_latch (a : Addr) : (s.setIndex a).latch = s.latch := rfl
@[simp] theorem State.setIndex_mode (a : Addr) : (s.setIndex a).mode = s.mode := rfl
@[simp] theorem State.setIndex_err (a : Addr) : (s.setIndex a).err = s.err := rfl
@[simp] theorem State.setIndex_disp (a : Addr) : (s.setIndex a).disp = s.disp := rfl
@[simp] theorem State.setIndex_mem (a : Addr) : (s.setIndex a).mem = s.mem := rfl
@[simp] theorem State.setIndex_cfg (a : Addr) : (s.setIndex a).cfg = s.cfg := rfl
@[simp] theorem State.setIndex_draws (a : Addr) : (s.setIndex a).draws = s.draws := rfl
@[simp] theorem State.setIndex_v (a : Addr) (k : RegIdx) : (s.setIndex a).v k = s.v k := rfl
@[simp] theorem State.setIndex_byteAt (a : Addr) (k : Nat) : (s.setIndex a).byteAt k = s.byteAt k := rfl
@[simp] theorem State.setIndex_pixel (a : Addr) (r c : Nat) : (s.setIndex a).pixel r c = s.pixel r c := rfl

/-! ### setPc -/

@[simp] theorem State.setPc_regs (a : Addr) : (s.setPc a).regs = s.regs := rfl
@[simp] theorem State.setPc_index (a : Addr) : (s.setPc a).index = s.index := rfl
@[simp] theorem State.setPc_pc (a : Addr) : (s.setPc a).pc = a := rfl
@[simp] theorem State.setPc_stack (a : Addr) : (s.setPc a).stack = s.stack := rfl
@[simp] theorem State.setPc_sp (a : Addr) : (s.setPc a).sp = s.sp := rfl
@[simp] theorem State.setPc_dt (a : Addr) : (s.setPc a).dt = s.dt := rfl
@[simp] theorem State.setPc_st (a : Addr) : (s.setPc a).st = s.st := rfl
@[simp] theorem State.setPc_keys (a : Addr) : (s.setPc a).keys = s.keys := rfl
@[simp] theorem State.setPc_latch (a : Addr) : (s.setPc a).latch = s.latch := rfl
@[simp] theorem State.setPc_mode (a : Addr) : (s.setPc a).mode = s.mode := rfl
@[simp] theorem State.setPc_err (a : Addr) : (s.setPc a).err = s.err := rfl
@[simp] theorem State.setPc_disp (a : Addr) : (s.setPc a).disp = s.disp := rfl
@[simp] theorem State.setPc_mem (a : Addr) : (s.setPc a).mem = s.mem := rfl
@[simp] theorem State.setPc_cfg (a : Addr) : (s.setPc a).cfg = s.cfg := rfl
@[simp] theorem State.setPc_draws (a : Addr) : (s.setPc a).draws = s.draws := rfl
@[simp] theorem State.setPc_v (a : Addr) (k : RegIdx) : (s.setPc a).v k = s.v k := rfl
@[simp] theorem State.setPc_byteAt (a : Addr) (k : Nat) : (s.setPc a).byteAt k = s.byteAt k := rfl
@[simp] theorem State.setPc_pixel (a : Addr) (r c : Nat) : (s.setPc a).pixel r c = s.pixel r c := rfl

/-! ### advance -/

@[simp] theorem State.advance_regs : (s.advance).regs = s.regs := rfl
@[simp] theorem State.advance_index : (s.advance).index = s.index := rfl
@[simp] theorem State.advance_pc : (s.advance).pc = s.pc + 2 := rfl
@[simp] theorem State.advance_stack : (s.advance).stack = s.stack := rfl
@[simp] theorem State.advance_sp : (s.advance).sp = s.sp := rfl
@[simp] theorem State.advance_dt : (s.advance).dt = s.dt := rfl
@[simp] theorem State.advance_st : (s.advance).st = s.st := rfl
@[simp] theorem State.advance_keys : (s.advance).keys = s.keys := rfl
@[simp] theorem State.advance_latch : (s.advance).latch = s.latch := rfl
@[simp] theorem State.advance_mode : (s.advance).mode = s.mode := rfl
@[simp] theorem State.advance_err : (s.advance).err = s.err := rfl
@[simp] theorem State.advance_disp : (s.advance).disp = s.disp := rfl
@[simp] theorem State.advance_mem : (s.advance).mem = s.mem := rfl
@[simp] theorem State.advance_cfg : (s.advance).cfg = s.cfg := rfl
@[simp] theorem State.advance_draws : (s.advance).draws = s.draws := rfl
@[simp] theorem State.advance_v (k : RegIdx) : (s.advance).v k = s.v k := rfl
@[simp] theorem State.advance_byteAt (k : Nat) : (s.advance).byteAt k = s.byteAt k := rfl
@[simp] theorem State.advance_pixel (r c : Nat) : (s.advance).pixel r c = s.pixel r c := rfl

/-! ### skip -/

@[simp] theorem State.skip_regs : (s.skip).regs = s.regs := rfl
@[simp] theorem State.skip_index : (s.skip).index = s.index := rfl
@[simp] theorem State.skip_pc : (s.skip).pc = s.pc + 4 := rfl
@[simp] theorem State.skip_stack : (s.skip).stack = s.stack := rfl
@[simp] theorem State.skip_sp : (s.skip).sp = s.sp := rfl
@[simp] theorem State.skip_dt : (s.skip).dt = s.dt := rfl
@[simp] theorem State.skip_st : (s.skip).st = s.st := rfl
@[simp] theorem State.skip_keys : (s.skip).keys = s.keys := rfl
@[simp] theorem State.skip_latch : (s.skip).latch = s.latch := rfl
@[simp] theorem State.skip_mode : (s.skip).mode = s.mode := rfl
@[simp] theorem State.skip_err : (s.skip).err = s.err := rfl
@[simp] theorem State.skip_disp : (s.skip).disp = s.disp := rfl
@[simp] theorem State.skip_mem : (s.skip).mem = s.mem := rfl
@[simp] theorem State.skip_cfg : (s.skip).cfg = s.cfg := rfl
@[simp] theorem State.skip_draws : (s.skip).draws = s.draws := rfl
@[simp] theorem State.skip_v (k : RegIdx) : (s.skip).v k = s.v k := rfl
@[simp] theorem State.skip_byteAt (k : Nat) : (s.skip).byteAt k = s.byteAt k := rfl
@[simp] theorem State.skip_pixel (r c : Nat) : (s.skip).pixel r c = s.pixel r c := rfl

/-! ### setDt -/

@[simp] theorem State.setDt_regs (b : Byte) : (s.setDt b).regs = s.regs := rfl
@[simp] theorem State.setDt_index (b : Byte) : (s.setDt b).index = s.index := rfl
@[simp] theorem State.setDt_pc (b : Byte) : (s.setDt b).pc = s.pc := rfl
@[simp] theorem State.setDt_stack (b : Byte) : (s.setDt b).stack = s.stack := rfl
@[simp] theorem State.setDt_sp (b : Byte) : (s.setDt b).sp = s.sp := rfl
@[simp] theorem State.setDt_dt (b : Byte) : (s.setDt b).dt = b := rfl
@[simp] theorem State.setDt_st (b : Byte) : (s.setDt b).st = s.st := rfl
@[simp] theorem State.setDt_keys (b : Byte) : (s.setDt b).keys = s.keys := rfl
@[simp] theorem State.setDt_latch (b : Byte) : (s.setDt b).latch = s.latch := rfl
@[simp] theorem State.setDt_mode (b : Byte) : (s.setDt b).mode = s.mode := rfl
@[simp] theorem State.setDt_err (b : Byte) : (s.setDt b).err = s.err := rfl
@[simp] theorem State.setDt_disp (b : Byte) : (s.setDt b).disp = s.disp := rfl
@[simp] theorem State.setDt_mem (b : Byte) : (s.setDt b).mem = s.mem := rfl
@[simp] theorem State.setDt_cfg (b : Byte) : (s.setDt b).cfg = s.cfg := rfl
@[simp] theorem State.setDt_draws (b : Byte) : (s.setDt b).draws = s.draws := rfl
@[simp] theorem State.setDt_v (b : Byte) (k : RegIdx) : (s.setDt b).v k = s.v k := rfl
@[simp] theorem State.setDt_byteAt (b : Byte) (k : Nat) : (s.setDt b).byteAt k = s.byteAt k := rfl
@[simp] theorem State.setDt_pixel (b : Byte) (r c : Nat) : (s.setDt b).pixel r c = s.pixel r c := rfl

/-! ### setSt -/

@[simp] theorem State.setSt_regs (b : Byte) : (s.setSt b).regs = s.regs := rfl
@[simp] theorem State.setSt_index (b : Byte) : (s.setSt b).index = s.index := rfl
@[simp] theorem State.setSt_pc (b : Byte) : (s.setSt b).pc = s.pc := rfl
@[simp] theorem State.setSt_stack (b : Byte) : (s.setSt b).stack = s.stack := rfl
@[simp] theorem State.setSt_sp (b : Byte) : (s.setSt b).sp = s.sp := rfl
@[simp] theorem State.setSt_dt (b : Byte) : (s.setSt b).dt = s.dt := rfl
@[simp] theorem State.setSt_st (b : Byte) : (s.setSt b).st = b := rfl
@[simp] theorem State.setSt_keys (b : Byte) : (s.setSt b).keys = s.keys := rfl
@[simp] theorem State.setSt_latch (b : Byte) : (s.setSt b).latch = s.latch := rfl
@[simp] theorem State.setSt_mode (b : Byte) : (s.setSt b).mode = s.mode := rfl
@[simp] theorem State.setSt_err (b : Byte) : (s.setSt b).err = s.err := rfl
@[simp] theorem State.setSt_disp (b : Byte) : (s.setSt b).disp = s.disp := rfl
@[simp] theorem State.setSt_mem (b : Byte) : (s.setSt b).mem = s.mem := rfl
@[simp] theorem State.setSt_cfg (b : Byte) : (s.setSt b).cfg = s.cfg := rfl
@[simp] theorem State.setSt_draws (b : Byte) : (s.setSt b).draws = s.draws := rfl
@[simp] theorem State.setSt_v (b : Byte) (k : RegIdx) : (s.setSt b).v k = s.v k := rfl
@[simp] theorem State.setSt_byteAt (b : Byte) (k : Nat) : (s.setSt b).byteAt k = s.byteAt k := rfl
@[simp] theorem State.setSt_pixel (b : Byte) (r c : Nat) : (s.setSt b).pixel r c = s.pixel r c := rfl

/-! ### setLatch -/

@[simp] theorem State.setLatch_regs (l : Option KeyCode) : (s.setLatch l).regs = s.regs := rfl
@[simp] theorem State.setLatch_index (l : Option KeyCode) : (s.setLatch l).index = s.index := rfl
@[simp] theorem State.setLatch_pc (l : Option KeyCode) : (s.setLatch l).pc = s.pc := rfl
@[simp] theorem State.setLatch_stack (l : Option KeyCode) : (s.setLatch l).stack = s.stack := rfl
@[simp] theorem State.setLatch_sp (l : Option KeyCode) : (s.setLatch l).sp = s.sp := rfl
@[simp] theorem State.setLatch_dt (l : Option KeyCode) : (s.setLatch l).dt = s.dt := rfl
@[simp] theorem State.setLatch_st (l : Option KeyCode) : (s.setLatch l).st = s.st := rfl
@[simp] theorem State.setLatch_keys (l : Option KeyCode) : (s.setLatch l).keys = s.keys := rfl
@[simp] theorem State.setLatch_latch (l : Option KeyCode) : (s.setLatch l).latch = l := rfl
@[simp] theorem State.setLatch_mode (l : Option KeyCode) : (s.setLatch l).mode = s.mode := rfl
@[simp] theorem State.setLatch_err (l : Option KeyCode) : (s.setLatch l).err = s.err := rfl
@[simp] theorem State.setLatch_disp (l : Option KeyCode) : (s.setLatch l).disp = s.disp := rfl
@[simp] theorem State.setLatch_mem (l : Option KeyCode) : (s.setLatch l).mem = s.mem := rfl
@[simp] theorem State.setLatch_cfg (l : Option KeyCode) : (s.setLatch l).cfg = s.cfg := rfl
@[simp] theorem State.setLatch_draws (l : Option KeyCode) : (s.setLatch l).draws = s.draws := rfl
@[simp] theorem State.setLatch_v (l : Option KeyCode) (k : RegIdx) : (s.setLatch l).v k = s.v k := rfl
@[simp] theorem State.setLatch_byteAt (l : Option KeyCode) (k : Nat) : (s.setLatch l).byteAt k = s.byteAt k := rfl
@[simp] theorem State.setLatch_pixel (l : Option KeyCode) (r c : Nat) : (s.setLatch l).pixel r c = s.pixel r c := rfl

/-! ### setMode -/

@[simp] theorem State.setMode_regs (m : Mode) : (s.setMode m).regs = s.regs := rfl
@[simp] theorem State.setMode_index (m : Mode) : (s.setMode m).index = s.index := rfl
@[simp] theorem State.setMode_pc (m : Mode) : (s.setMode m).pc = s.pc := rfl
@[simp] theorem State.setMode_stack (m : Mode) : (s.setMode m).stack = s.stack := rfl
@[simp] theorem State.setMode_sp (m : Mode) : (s.setMode m).sp = s.sp := rfl
@[simp] theorem State.setMode_dt (m : Mode) : (s.setMode m).dt = s.dt := rfl
@[simp] theorem State.setMode_st (m : Mode) : (s.setMode m).st = s.st := rfl
@[simp] theorem State.setMode_keys (m : Mode) : (s.setMode m).keys = s.keys := rfl
@[simp] theorem State.setMode_latch (m : Mode) : (s.setMode m).latch = s.latch := rfl
@[simp] theorem State.setMode_mode (m : Mode) : (s.setMode m).mode = m := rfl
@[simp] theorem State.setMode_err (m : Mode) : (s.setMode m).err = s.err := rfl
@[simp] theorem State.setMode_disp (m : Mode) : (s.setMode m).disp = s.disp := rfl
@[simp] theorem State.setMode_mem (m : Mode) : (s.setMode m).mem = s.mem := rfl
@[simp] theorem State.setMode_cfg (m : Mode) : (s.setMode m).cfg = s.cfg := rfl
@[simp] theorem State.setMode_draws (m : Mode) : (s.setMode m).draws = s.draws := rfl
@[simp] theorem State.setMode_v (m : Mode) (k : RegIdx) : (s.setMode m).v k = s.v k := rfl
@[simp] theorem State.setMode_byteAt (m : Mode) (k : Nat) : (s.setMode m).byteAt k = s.byteAt k := rfl
@[simp] theorem State.setMode_pixel (m : Mode) (r c : Nat) : (s.setMode m).pixel r c = s.pixel r c := rfl

/-! ### setDisp -/

@[simp] theorem State.setDisp_regs (d : Bitmap) : (s.setDisp d).regs = s.regs := rfl
@[simp] theorem State.setDisp_index (d : Bitmap) : (s.setDisp d).index = s.index := rfl
@[simp] theorem State.setDisp_pc (d : Bitmap) : (s.setDisp d).pc = s.pc := rfl
@[simp] theorem State.setDisp_stack (d : Bitmap) : (s.setDisp d).stack = s.stack := rfl
@[simp] theorem State.setDisp_sp (d : Bitmap) : (s.setDisp d).sp = s.sp := rfl
@[simp] theorem State.setDisp_dt (d : Bitmap) : (s.setDisp d).dt = s.dt := rfl
@[simp] theorem State.setDisp_st (d : Bitmap) : (s.setDisp d).st = s.st := rfl
@[simp] theorem State.setDisp_keys (d : Bitmap) : (s.setDisp d).keys = s.keys := rfl
@[simp] theorem State.setDisp_latch (d : Bitmap) : (s.setDisp d).latch = s.latch := rfl
@[simp] theorem State.setDisp_mode (d : Bitmap) : (s.setDisp d).mode = s.mode := rfl
@[simp] theorem State.setDisp_err (d : Bitmap) : (s.setDisp d).err = s.err := rfl
@[simp] theorem State.setDisp_disp (d : Bitmap) : (s.setDisp d).disp = d := rfl
@[simp] theorem State.setDisp_mem (d : Bitmap) : (s.setDisp d).mem = s.mem := rfl
@[simp] theorem State.setDisp_cfg (d : Bitmap) : (s.setDisp d).cfg = s.cfg := rfl
@[simp] theorem State.setDisp_draws (d : Bitmap) : (s.setDisp d).draws = s.draws := rfl
@[simp] theorem State.setDisp_v (d : Bitmap) (k : RegIdx) : (s.setDisp d).v k = s.v k := rfl
@[simp] theorem State.setDisp_byteAt (d : Bitmap) (k : Nat) : (s.setDisp d).byteAt k = s.byteAt k := rfl

/-! ### countDraw -/

@[simp] theorem State.countDraw_regs : (s.countDraw).regs = s.regs := rfl
@[simp] theorem State.countDraw_index : (s.countDraw).index = s.index := rfl
@[simp] theorem State.countDraw_pc : (s.countDraw).pc = s.pc := rfl
@[simp] theorem State.countDraw_stack : (s.countDraw).stack = s.stack := rfl
@[simp] theorem State.countDraw_sp : (s.countDraw).sp = s.sp := rfl
@[simp] theorem State.countDraw_dt : (s.countDraw).dt = s.dt := rfl
@[simp] theorem State.countDraw_st : (s.countDraw).st = s.st := rfl
@[simp] theorem State.countDraw_keys : (s.countDraw).keys = s.keys := rfl
@[simp] theorem State.countDraw_latch : (s.countDraw).latch = s.latch := rfl
@[simp] theorem State.countDraw_mode : (s.countDraw).mode = s.mode := rfl
@[simp] theorem State.countDraw_err : (s.countDraw).err = s.err := rfl
@[simp] theorem State.countDraw_disp : (s.countDraw).disp = s.disp := rfl
@[simp] theorem State.countDraw_mem : (s.countDraw).mem = s.mem := rfl
@[simp] theorem State.countDraw_cfg : (s.countDraw).cfg = s.cfg := rfl
@[simp] theorem State.countDraw_draws : (s.countDraw).draws = s.draws + 1 := rfl
@[simp] theorem State.countDraw_v (k : RegIdx) : (s.countDraw).v k = s.v k := rfl
@[simp] theorem State.countDraw_byteAt (k : Nat) : (s.countDraw).byteAt k = s.byteAt k := rfl
@[simp] theorem State.countDraw_pixel (r c : Nat) : (s.countDraw).pixel r c = s.pixel r c := rfl

/-! ### raise -/

@[simp] theorem State.raise_regs (e : ErrRecord) : (s.raise e).regs = s.regs := rfl
@[simp] theorem State.raise_index (e : ErrRecord) : (s.raise e).index = s.index := rfl
@[simp] theorem State.raise_pc (e : ErrRecord) : (s.raise e).pc = s.pc := rfl
@[simp] theorem State.raise_stack (e : ErrRecord) : (s.raise e).stack = s.stack := rfl
@[simp] theorem State.raise_sp (e : ErrRecord) : (s.raise e).sp = s.sp := rfl
@[simp] theorem State.raise_dt (e : ErrRecord) : (s.raise e).dt = s.dt := rfl
@[simp] theorem State.raise_st (e : ErrRecord) : (s.raise e).st = s.st := rfl
@[simp] theorem State.raise_keys (e : ErrRecord) : (s.raise e).keys = s.keys := rfl
@[simp] theorem State.raise_latch (e : ErrRecord) : (s.raise e).latch = s.latch := rfl
@[simp] theorem State.raise_mode (e : ErrRecord) : (s.raise e).mode = .halted := rfl
@[simp] theorem State.raise_err (e : ErrRecord) : (s.raise e).err = some e := rfl
@[simp] theorem State.raise_disp (e : ErrRecord) : (s.raise e).disp = s.disp := rfl
@[simp] theorem State.raise_mem (e : ErrRecord) : (s.raise e).mem = s.mem := rfl
@[simp] theorem State.raise_cfg (e : ErrRecord) : (s.raise e).cfg = s.cfg := rfl
@[simp] theorem State.raise_draws (e : ErrRecord) : (s.raise e).draws = s.draws := rfl
@[simp] theorem State.raise_v (e : ErrRecord) (k : RegIdx) : (s.raise e).v k = s.v k := rfl
@[simp] theorem State.raise_byteAt (e : ErrRecord) (k : Nat) : (s.raise e).byteAt k = s.byteAt k := rfl
@[simp] theorem State.raise_pixel (e : ErrRecord) (r c : Nat) : (s.raise e).pixel r c = s.pixel r c := rfl

/-! ### poke -/

@[simp] theorem State.poke_regs (a : Nat) (b : Byte) : (s.poke a b).regs = s.regs := rfl
@[simp] theorem State.poke_index (a : Nat) (b : Byte) : (s.poke a b).index = s.index := rfl
@[simp] theorem State.poke_pc (a : Nat) (b : Byte) : (s.poke a b).pc = s.pc := rfl
@[simp] theorem State.poke_stack (a : Nat) (b : Byte) : (s.poke a b).stack = s.stack := rfl
@[simp] theorem State.poke_sp (a : Nat) (b : Byte) : (s.poke a b).sp = s.sp := rfl
@[simp] theorem State.poke_dt (a : Nat) (b : Byte) : (s.poke a b).dt = s.dt := rfl
@[simp] theorem State.poke_st (a : Nat) (b : Byte) : (s.poke a b).st = s.st := rfl
@[simp] theorem State.poke_keys (a : Nat) (b : Byte) : (s.poke a b).keys = s.keys := rfl
@[simp] theorem State.poke_latch (a : Nat) (b : Byte) : (s.poke a b).latch = s.latch := rfl
@[simp] theorem State.poke_mode (a : Nat) (b : Byte) : (s.poke a b).mode = s.mode := rfl
@[simp] theorem State.poke_err (a : Nat) (b : Byte) : (s.poke a b).err = s.err := rfl
@[simp] theorem State.poke_disp (a : Nat) (b : Byte) : (s.poke a b).disp = s.disp := rfl
@[simp] theorem State.poke_mem (a : Nat) (b : Byte) : (s.poke a b).mem = Memory.write s.cfg.font s.mem a b := rfl
@[simp] theorem State.poke_cfg (a : Nat) (b : Byte) : (s.poke a b).cfg = s.cfg := rfl
@[simp] theorem State.poke_draws (a : Nat) (b : Byte) : (s.poke a b).draws = s.draws := rfl
@[simp] theorem State.poke_v (a : Nat) (b : Byte) (k : RegIdx) : (s.poke a b).v k = s.v k := rfl
@[simp] theorem State.poke_pixel (a : Nat) (b : Byte) (r c : Nat) : (s.poke a b).pixel r c = s.pixel r c := rfl

/-! ### skipIf -/

theorem State.skipIf_eq (t : Bool) : s.skipIf t = s.setPc (if t then s.pc + 4 else s.pc + 2) := by
  cases t <;> rfl

/-! ### registers -/

@[simp] theorem State.v_setV_same (x : RegIdx) (b : Byte) : (s.setV x b).v x = b := by
  simp [State.v, State.setV]

theorem State.v_setV_ne (x k : RegIdx) (b : Byte) (h : k ≠ x) : (s.setV x b).v k = s.v k := by
  have h' : x.toNat ≠ k.toNat := fun e => h (BitVec.eq_of_toNat_eq e.symm)
  simp [State.v, State.setV, h']

theorem State.v_setV (x k : RegIdx) (b : Byte) : (s.setV x b).v k = if k = x then b else s.v k := by
  split
  · next h => subst h; exact State.v_setV_same s k b
  · next h => exact State.v_setV_ne s x k b h

/-- Two register files that read alike are equal. -/
theorem regs_ext {a b : Vector Byte 16} (h : ∀ k : RegIdx, a[k.toNat]'k.isLt = b[k.toNat]'k.isLt) : a = b := by
  refine Vector.ext fun i hi => ?_
  simpa [Nat.mod_eq_of_lt hi] using h (BitVec.ofNat 4 i)

/-- The registers after a result and a flag are written: the flag wins in VF (spec/42_alu.md R191). -/
theorem State.writeWithFlag_v (x k : RegIdx) (r : Byte) (f : Bool) :
    (s.writeWithFlag x r f).v k = if k = vf then flagByte f else if k = x then r else s.v k := by
  simp [State.writeWithFlag, State.v_setV]

/-! ### memory -/

theorem State.byteAt_eq (a : Nat) :
    s.byteAt a = if a < s.cfg.memSize then some (Memory.read s.cfg.font s.mem a) else none := rfl

theorem State.byteAt_isSome (a : Nat) : (s.byteAt a).isSome = decide (a < s.cfg.memSize) := by
  unfold State.byteAt; split <;> simp_all

end Sys2Proof.Machine
end

