-- ==== Sys2Proof/Laws/Memory.lean ====
section
/-! SUPPORT. Memory: a read after a write, and the canonical form kept by every operation (spec/20_memory.md R93). -/

namespace Sys2Proof.Machine

theorem Memory.lookup_insert (m : Memory) (a k : Nat) (b : Byte) :
    (m.insert a b).lookup k = if k = a then some b else m.lookup k := by
  induction m with
  | nil => simp [Memory.insert, Memory.lookup, eq_comm]
  | cons c m ih =>
    obtain ⟨a', b'⟩ := c
    simp only [Memory.insert]
    split
    · simp only [Memory.lookup, eq_comm]
    · split
      · next h => subst h; simp only [Memory.lookup]; grind
      · simp only [Memory.lookup, ih]; grind

theorem Memory.lookup_erase (m : Memory) (a k : Nat) :
    (m.erase a).lookup k = if k = a then none else m.lookup k := by
  induction m with
  | nil => simp [Memory.erase, Memory.lookup]
  | cons c m ih =>
    obtain ⟨a', b'⟩ := c
    unfold Memory.erase at ih ⊢
    by_cases h : a' = a
    · subst h
      simp only [List.filter_cons, ne_eq, not_true_eq_false, decide_false, Bool.false_eq_true, if_false, ih, Memory.lookup]
      grind
    · simp only [List.filter_cons, ne_eq, h, not_false_eq_true, decide_true, if_true, Memory.lookup, ih]
      grind

/-- A read after a write: the byte written there, every other byte as before. -/
theorem Memory.read_write (font : Vector Byte 80) (m : Memory) (a k : Nat) (b : Byte) :
    Memory.read font (Memory.write font m a b) k = if k = a then b else Memory.read font m k := by
  unfold Memory.read Memory.write
  split
  · next h => rw [Memory.lookup_erase]; split <;> simp_all
  · rw [Memory.lookup_insert]; split <;> simp_all

theorem Memory.mem_insert {m : Memory} {a : Nat} {b : Byte} {c : Host.Cell} (h : c ∈ m.insert a b) :
    c = (a, b) ∨ c ∈ m := by
  induction m with
  | nil => simpa [Memory.insert] using h
  | cons c' m ih =>
    obtain ⟨a', b'⟩ := c'
    simp only [Memory.insert] at h
    split at h
    · simpa using h
    · split at h
      · next e => subst e; grind
      · simp only [List.mem_cons] at h ⊢
        rcases h with h | h
        · exact .inr (.inl h)
        · exact (ih h).imp id .inr

theorem Memory.rising_insert (m : Memory) (a : Nat) (b : Byte) (h : m.rising = true) :
    (m.insert a b).rising = true := by
  induction m with
  | nil => rfl
  | cons c m ih =>
    obtain ⟨a', b'⟩ := c
    simp only [Memory.rising, Bool.and_eq_true, List.all_eq_true, decide_eq_true_eq] at h
    simp only [Memory.insert]
    split
    · next hlt =>
      simp only [Memory.rising, Bool.and_eq_true, List.all_eq_true, decide_eq_true_eq, List.mem_cons]
      exact ⟨by rintro c (rfl | hc); exacts [hlt, hlt.trans (h.1 c hc)], h⟩
    · next hge =>
      split
      · next e => subst e; simpa [Memory.rising] using h
      · next hne =>
        simp only [Memory.rising, Bool.and_eq_true, List.all_eq_true, decide_eq_true_eq]
        refine ⟨fun c hc => ?_, ih h.2⟩
        rcases Memory.mem_insert hc with rfl | hc
        · show a' < a; omega
        · exact h.1 c hc

theorem Memory.rising_erase (m : Memory) (a : Nat) (h : m.rising = true) : (m.erase a).rising = true := by
  induction m with
  | nil => rfl
  | cons c m ih =>
    obtain ⟨a', b'⟩ := c
    simp only [Memory.rising, Bool.and_eq_true, List.all_eq_true, decide_eq_true_eq] at h
    have ih := ih h.2
    unfold Memory.erase at ih ⊢
    simp only [List.filter_cons]
    split
    · simp only [Memory.rising, Bool.and_eq_true, List.all_eq_true, decide_eq_true_eq]
      exact ⟨fun c hc => h.1 c (List.mem_of_mem_filter hc), ih⟩
    · exact ih

/-- What the canonical form says. -/
theorem Memory.wf_iff (font : Vector Byte 80) (size : Nat) (m : Memory) :
    m.wf font size = true ↔ m.rising = true ∧ ∀ c ∈ m, c.1 < size ∧ c.2 ≠ initialByte font c.1 := by
  simp [Memory.wf, List.all_eq_true]

@[simp] theorem Memory.wf_nil (font : Vector Byte 80) (size : Nat) : Memory.wf font size [] = true := rfl

/-- A write inside memory keeps the canonical form. -/
theorem Memory.wf_write (font : Vector Byte 80) (size : Nat) (m : Memory) (a : Nat) (b : Byte)
    (h : m.wf font size = true) (ha : a < size) : (Memory.write font m a b).wf font size = true := by
  rw [Memory.wf_iff] at h ⊢
  unfold Memory.write
  split
  · exact ⟨Memory.rising_erase m a h.1, fun c hc => h.2 c (List.mem_of_mem_filter hc)⟩
  · next hb =>
    refine ⟨Memory.rising_insert m a b h.1, fun c hc => ?_⟩
    rcases Memory.mem_insert hc with rfl | hc
    · exact ⟨ha, hb⟩
    · exact h.2 c hc

/-! ## The same through the state -/

theorem State.byteAt_poke (s : State) (a k : Nat) (b : Byte) :
    (s.poke a b).byteAt k = if k = a ∧ a < s.cfg.memSize then some b else s.byteAt k := by
  simp only [State.byteAt_eq, State.poke_cfg, State.poke_mem, Memory.read_write]
  grind

theorem State.poke_memOk (s : State) (a : Nat) (b : Byte) (h : s.memOk = true) (ha : a < s.cfg.memSize) :
    (s.poke a b).memOk = true :=
  Memory.wf_write s.cfg.font s.cfg.memSize s.mem a b h ha

end Sys2Proof.Machine
end

