-- ==== Sys2Proof/Laws/Ops.lean ====
section
/-! SUPPORT. One lemma per shared operation, saying everything it can do; callers cite it instead of unfolding the operation. -/

namespace Sys2Proof.Machine

/-! ## Checked accesses -/

@[simp] theorem Access.bind_ok {α β : Type} (a : α) (s : State) (k : α → State → Access β) :
    (Access.ok a s).bind k = k a s := rfl

@[simp] theorem Access.bind_failed {α β : Type} (sp : Space) (ix : Nat) (s : State) (k : α → State → Access β) :
    (Access.failed sp ix s : Access α).bind k = .failed sp ix s := rfl

@[simp] theorem Access.conclude_ok {α : Type} (A : Addr) (w : Word) (k : α → State → State) (a : α) (s : State) :
    (Access.ok a s).conclude A w k = .next (k a s) := rfl

@[simp] theorem Access.conclude_failed {α : Type} (A : Addr) (w : Word) (k : α → State → State) (sp : Space) (ix : Nat)
    (s : State) : (Access.failed sp ix s : Access α).conclude A w k =
      .next (s.raise (outOfBoundsRecord A (some w) sp ix)) := rfl

/-- An instruction that may fail always has a next state: it completes or it raises (spec/40_execute_cycle.md R150). -/
theorem Access.conclude_cases {α : Type} (A : Addr) (w : Word) (k : α → State → State) (r : Access α) :
    (∃ a t, r = .ok a t ∧ r.conclude A w k = .next (k a t)) ∨
    (∃ sp ix t, r = .failed sp ix t ∧ r.conclude A w k = .next (t.raise (outOfBoundsRecord A (some w) sp ix))) := by
  cases r with
  | ok a t => exact .inl ⟨a, t, rfl, rfl⟩
  | failed sp ix t => exact .inr ⟨sp, ix, t, rfl, rfl⟩

/-! ## Memory accesses -/

/-- A byte read answers the byte, or fails with the address; it changes nothing (R84). -/
theorem memRead8_eq (space : Space) (a : Nat) (s : State) :
    memRead8 space a s =
      if a < s.cfg.memSize then .ok (Memory.read s.cfg.font s.mem a) s else .failed space a s := by
  unfold memRead8 State.byteAt
  split <;> simp_all

/-- A word read answers both bytes, or fails with the first address outside; it changes nothing (R85). -/
theorem memRead16_eq (space : Space) (a : Nat) (s : State) :
    memRead16 space a s =
      if a + 1 < s.cfg.memSize then
        .ok (bigEndian (Memory.read s.cfg.font s.mem a) (Memory.read s.cfg.font s.mem (a + 1))) s
      else .failed space (if s.cfg.memSize ≤ a then a else a + 1) s := by
  unfold memRead16
  simp only [memRead8_eq]
  by_cases h : a < s.cfg.memSize
  · by_cases h' : a + 1 < s.cfg.memSize
    · simp [h, h']
    · simp [h, h', Nat.not_le.mpr h]
  · have h' : ¬ a + 1 < s.cfg.memSize := by omega
    simp [h, h', Nat.not_lt.mp h]

/-- The fetch (R143, R144). -/
theorem fetchWord_eq (s : State) :
    fetchWord s =
      if s.pc.toNat + 1 < s.cfg.memSize then
        .ok (bigEndian (Memory.read s.cfg.font s.mem s.pc.toNat) (Memory.read s.cfg.font s.mem (s.pc.toNat + 1))) s
      else .failed .fetch (if s.cfg.memSize ≤ s.pc.toNat then s.pc.toNat else s.pc.toNat + 1) s :=
  memRead16_eq .fetch s.pc.toNat s

/-! ## Byte stores -/

@[simp] theorem State.pokeBytes_regs (s : State) (o : Nat) (bs : List Byte) : (s.pokeBytes o bs).regs = s.regs := by
  induction bs generalizing s o with
  | nil => rfl
  | cons b bs ih => exact ih (s.poke o b) (o + 1)
@[simp] theorem State.pokeBytes_index (s : State) (o : Nat) (bs : List Byte) : (s.pokeBytes o bs).index = s.index := by
  induction bs generalizing s o with
  | nil => rfl
  | cons b bs ih => exact ih (s.poke o b) (o + 1)
@[simp] theorem State.pokeBytes_pc (s : State) (o : Nat) (bs : List Byte) : (s.pokeBytes o bs).pc = s.pc := by
  induction bs generalizing s o with
  | nil => rfl
  | cons b bs ih => exact ih (s.poke o b) (o + 1)
@[simp] theorem State.pokeBytes_stack (s : State) (o : Nat) (bs : List Byte) : (s.pokeBytes o bs).stack = s.stack := by
  induction bs generalizing s o with
  | nil => rfl
  | cons b bs ih => exact ih (s.poke o b) (o + 1)
@[simp] theorem State.pokeBytes_sp (s : State) (o : Nat) (bs : List Byte) : (s.pokeBytes o bs).sp = s.sp := by
  induction bs generalizing s o with
  | nil => rfl
  | cons b bs ih => exact ih (s.poke o b) (o + 1)
@[simp] theorem State.pokeBytes_dt (s : State) (o : Nat) (bs : List Byte) : (s.pokeBytes o bs).dt = s.dt := by
  induction bs generalizing s o with
  | nil => rfl
  | cons b bs ih => exact ih (s.poke o b) (o + 1)
@[simp] theorem State.pokeBytes_st (s : State) (o : Nat) (bs : List Byte) : (s.pokeBytes o bs).st = s.st := by
  induction bs generalizing s o with
  | nil => rfl
  | cons b bs ih => exact ih (s.poke o b) (o + 1)
@[simp] theorem State.pokeBytes_keys (s : State) (o : Nat) (bs : List Byte) : (s.pokeBytes o bs).keys = s.keys := by
  induction bs generalizing s o with
  | nil => rfl
  | cons b bs ih => exact ih (s.poke o b) (o + 1)
@[simp] theorem State.pokeBytes_latch (s : State) (o : Nat) (bs : List Byte) : (s.pokeBytes o bs).latch = s.latch := by
  induction bs generalizing s o with
  | nil => rfl
  | cons b bs ih => exact ih (s.poke o b) (o + 1)
@[simp] theorem State.pokeBytes_mode (s : State) (o : Nat) (bs : List Byte) : (s.pokeBytes o bs).mode = s.mode := by
  induction bs generalizing s o with
  | nil => rfl
  | cons b bs ih => exact ih (s.poke o b) (o + 1)
@[simp] theorem State.pokeBytes_err (s : State) (o : Nat) (bs : List Byte) : (s.pokeBytes o bs).err = s.err := by
  induction bs generalizing s o with
  | nil => rfl
  | cons b bs ih => exact ih (s.poke o b) (o + 1)
@[simp] theorem State.pokeBytes_disp (s : State) (o : Nat) (bs : List Byte) : (s.pokeBytes o bs).disp = s.disp := by
  induction bs generalizing s o with
  | nil => rfl
  | cons b bs ih => exact ih (s.poke o b) (o + 1)
@[simp] theorem State.pokeBytes_cfg (s : State) (o : Nat) (bs : List Byte) : (s.pokeBytes o bs).cfg = s.cfg := by
  induction bs generalizing s o with
  | nil => rfl
  | cons b bs ih => exact ih (s.poke o b) (o + 1)
@[simp] theorem State.pokeBytes_draws (s : State) (o : Nat) (bs : List Byte) : (s.pokeBytes o bs).draws = s.draws := by
  induction bs generalizing s o with
  | nil => rfl
  | cons b bs ih => exact ih (s.poke o b) (o + 1)

/-- Unchecked writes change memory alone. -/
theorem State.pokeBytes_eq (s : State) (o : Nat) (bs : List Byte) :
    s.pokeBytes o bs = { s with mem := (s.pokeBytes o bs).mem } := by
  ext1 <;> simp

/-- Every byte after a run of unchecked writes. -/
theorem State.byteAt_pokeBytes (s : State) (o : Nat) (bs : List Byte) (k : Nat) :
    (s.pokeBytes o bs).byteAt k =
      if o ≤ k ∧ k < o + bs.length ∧ k < s.cfg.memSize then bs[k - o]? else s.byteAt k := by
  induction bs generalizing s o with
  | nil => simp only [State.pokeBytes, List.length_nil]; grind
  | cons b bs ih =>
    simp only [State.pokeBytes, ih, State.poke_cfg, State.byteAt_poke, List.length_cons]
    by_cases hk : k = o
    · subst hk
      have h1 : ¬ (k + 1 ≤ k ∧ k < k + 1 + bs.length ∧ k < s.cfg.memSize) := by omega
      rw [if_neg h1]
      by_cases h2 : k < s.cfg.memSize <;> simp [h2]
    · by_cases hlt : o < k
      · have e : k - o = (k - (o + 1)) + 1 := by omega
        simp only [e, List.getElem?_cons_succ, hk, false_and, if_false]
        split <;> split <;> first | rfl | omega
      · simp only [hk, false_and, if_false]
        split <;> split <;> first | rfl | omega

theorem State.pokeBytes_memOk (s : State) (o : Nat) (bs : List Byte) (h : s.memOk = true)
    (ho : bs.length ≤ s.cfg.memSize - o) : (s.pokeBytes o bs).memOk = true := by
  induction bs generalizing s o with
  | nil => exact h
  | cons b bs ih =>
    simp only [List.length_cons] at ho
    exact ih (s.poke o b) (o + 1) (s.poke_memOk o b h (by omega)) (by simp only [State.poke_cfg]; omega)

/-- Byte stores in ascending order: as many as memory has room for; the first that has none fails (R90, R150). -/
theorem storeBytes_eq (bs : List Byte) (a : Nat) (s : State) :
    storeBytes bs a s =
      if bs.length ≤ s.cfg.memSize - a then .ok () (s.pokeBytes a bs)
      else .failed .memWrite (a + (s.cfg.memSize - a)) (s.pokeBytes a (bs.take (s.cfg.memSize - a))) := by
  induction bs generalizing s a with
  | nil => simp [storeBytes, State.pokeBytes]
  | cons b bs ih =>
    simp only [storeBytes, memWrite8]
    by_cases h : a < s.cfg.memSize
    · obtain ⟨m, hm⟩ : ∃ m, s.cfg.memSize - a = m + 1 := ⟨s.cfg.memSize - a - 1, by omega⟩
      have hm' : s.cfg.memSize - (a + 1) = m := by omega
      simp only [h, if_true, Access.bind_ok, ih, State.poke_cfg, hm, hm', List.length_cons, Nat.add_le_add_iff_right,
        List.take_succ_cons, State.pokeBytes]
      split
      · rfl
      · congr 1; omega
    · have hz : s.cfg.memSize - a = 0 := by omega
      simp [h, hz, State.pokeBytes]

/-! ## Register loads -/

/-- Register loads in ascending order: `m` of the `n` have a byte in memory; where `m < n` the next one fails (R225). The
loaded registers hold their bytes and nothing else changes. -/
theorem loadRegs_spec (n k a : Nat) (s : State) (hk : k + n ≤ 16) :
    ∃ t : State, t = { s with regs := t.regs } ∧
      (∀ j : RegIdx, t.v j =
        if k ≤ j.toNat ∧ j.toNat < k + min n (s.cfg.memSize - a) then
          Memory.read s.cfg.font s.mem (a + (j.toNat - k)) else s.v j) ∧
      loadRegs n k a s =
        if n ≤ s.cfg.memSize - a then .ok () t else .failed .memRead (a + (s.cfg.memSize - a)) t := by
  induction n generalizing k a s with
  | zero =>
    refine ⟨s, rfl, fun j => ?_, by simp [loadRegs]⟩
    have : ¬ (k ≤ j.toNat ∧ j.toNat < k + min 0 (s.cfg.memSize - a)) := by omega
    rw [if_neg this]
  | succ n ih =>
    simp only [loadRegs, memRead8_eq]
    by_cases h : a < s.cfg.memSize
    · obtain ⟨t, ht, hv, he⟩ := ih (k + 1) (a + 1) (s.setV (BitVec.ofNat 4 k) (Memory.read s.cfg.font s.mem a)) (by omega)
      refine ⟨t, by rw [ht]; rfl, fun j => ?_, ?_⟩
      · rw [hv j, State.v_setV]
        have hj : j = BitVec.ofNat 4 k ↔ j.toNat = k := by
          rw [← BitVec.toNat_inj, BitVec.toNat_ofNat]; omega
        simp only [State.setV_cfg, State.setV_mem, hj]
        by_cases hjk : j.toNat = k
        · subst hjk
          have h1 : ¬ (j.toNat + 1 ≤ j.toNat ∧ j.toNat < j.toNat + 1 + min n (s.cfg.memSize - (a + 1))) := by omega
          have h2 : j.toNat ≤ j.toNat ∧ j.toNat < j.toNat + min (n + 1) (s.cfg.memSize - a) := by omega
          rw [if_neg h1, if_pos rfl, if_pos h2]; simp
        · simp only [hjk, if_false]
          by_cases h1 : k + 1 ≤ j.toNat ∧ j.toNat < k + 1 + min n (s.cfg.memSize - (a + 1))
          · have h2 : k ≤ j.toNat ∧ j.toNat < k + min (n + 1) (s.cfg.memSize - a) := by omega
            rw [if_pos h1, if_pos h2]; congr 1; omega
          · have h2 : ¬ (k ≤ j.toNat ∧ j.toNat < k + min (n + 1) (s.cfg.memSize - a)) := by omega
            rw [if_neg h1, if_neg h2]
      · simp only [h, if_true, Access.bind_ok, he, State.setV_cfg]
        have h3 : n ≤ s.cfg.memSize - (a + 1) ↔ n + 1 ≤ s.cfg.memSize - a := by omega
        have h4 : a + 1 + (s.cfg.memSize - (a + 1)) = a + (s.cfg.memSize - a) := by omega
        simp only [h3, h4]
    · have hz : s.cfg.memSize - a = 0 := by omega
      refine ⟨s, rfl, fun j => ?_, by simp [h, hz]⟩
      have : ¬ (k ≤ j.toNat ∧ j.toNat < k + min (n + 1) (s.cfg.memSize - a)) := by omega
      rw [if_neg this]

/-! ## The call stack and the keys -/

/-- `push` fails exactly on a full stack, before any write (spec/10_state.md R43). -/
theorem pushStack_eq (v : Addr) (s : State) :
    pushStack v s =
      if s.sp = s.cfg.stackCapacity then .failed .stackOverflow s.sp s
      else .ok () { s with stack := s.stack.set s.sp v, sp := s.sp + 1 } := rfl

/-- `pop` fails exactly on an empty stack (R44). -/
theorem popStack_eq (s : State) :
    popStack s =
      if s.sp = 0 then .failed .stackUnderflow 0 s
      else .ok (s.stack.getD (s.sp - 1) 0) { s with sp := s.sp - 1 } := rfl

/-- A key query answers the level of a code 0 to 15, and fails with any other; it changes nothing (R282). -/
theorem keyIsDown_cases (k : Byte) (s : State) :
    (∃ h : k.toNat < 16, keyIsDown k s = .ok s.keys[k.toNat] s) ∨
    (15 < k.toNat ∧ keyIsDown k s = .failed .key k.toNat s) := by
  by_cases h : k.toNat < 16
  · exact .inl ⟨h, by simp [keyIsDown, h]⟩
  · exact .inr ⟨by omega, by simp [keyIsDown, h]⟩

end Sys2Proof.Machine
end

