-- ==== Sys2Proof/Laws/Display.lean ====
section
/-! SUPPORT. The rasterizer: pixels through each drawing operation, and what drawing leaves alone (spec/44_display.md R241). -/

namespace Sys2Proof.Machine

/-- A pixel's place in the row-major bitmap is its own. -/
theorem pixelIndex_inj {w r c r' c' : Nat} (hc : c < w) (hc' : c' < w) (h : r * w + c = r' * w + c') : r = r' ∧ c = c' := by
  have hr : r = r' := by
    have h1 := congrArg (· / w) h
    simpa [Nat.mul_comm r w, Nat.mul_comm r' w, Nat.mul_add_div (by omega : w > 0), Nat.div_eq_of_lt hc,
      Nat.div_eq_of_lt hc'] using h1
  subst hr
  exact ⟨rfl, by omega⟩

theorem pixelIndex_lt {w h r c : Nat} (hr : r < h) (hc : c < w) : r * w + c < h * w := by
  calc r * w + c < r * w + w := by omega
    _ = (r + 1) * w := by rw [Nat.add_mul, Nat.one_mul]
    _ ≤ h * w := Nat.mul_le_mul_right w hr

@[simp] theorem Bitmap.setPixel_length (w : Nat) (d : Bitmap) (r c : Nat) (b : Bool) :
    (d.setPixel w r c b).length = d.length := List.length_set

@[simp] theorem Bitmap.blank_length (w h : Nat) : (Bitmap.blank w h).length = h * w := List.length_replicate

theorem Bitmap.blank_pixel (w h r c : Nat) : Bitmap.pixel w (Bitmap.blank w h) r c = false := by
  simp only [Bitmap.pixel, Bitmap.blank, List.getD_eq_getElem?_getD, List.getElem?_replicate]
  split <;> rfl

/-- A pixel after a pixel write, inside the bitmap. -/
theorem Bitmap.pixel_setPixel (w : Nat) (d : Bitmap) (r c r' c' : Nat) (b : Bool) (hc : c < w) (hc' : c' < w)
    (hd : r * w + c < d.length) :
    Bitmap.pixel w (d.setPixel w r c b) r' c' = if r' = r ∧ c' = c then b else Bitmap.pixel w d r' c' := by
  simp only [Bitmap.pixel, Bitmap.setPixel, List.getD_eq_getElem?_getD, List.getElem?_set]
  by_cases h : r' = r ∧ c' = c
  · obtain ⟨rfl, rfl⟩ := h; simp [hd]
  · have : r * w + c ≠ r' * w + c' := fun e => h ⟨(pixelIndex_inj hc hc' e).1.symm, (pixelIndex_inj hc hc' e).2.symm⟩
    simp [h, this]

@[simp] theorem Bitmap.drawBit_length (w r c : Nat) (bit : Bool) (p : Bitmap × Bool) :
    (Bitmap.drawBit w r c bit p).1.length = p.1.length := by
  unfold Bitmap.drawBit; split <;> simp

@[simp] theorem Bitmap.drawByte_length (w py cx : Nat) (b : Byte) (p : Bitmap × Bool) :
    (Bitmap.drawByte w py cx b p).1.length = p.1.length := by
  unfold Bitmap.drawByte
  induction List.range 8 generalizing p with
  | nil => rfl
  | cons c cs ih => simp only [List.foldl_cons, ih, Bitmap.drawBit_length]

/-- Rows drawn change the bitmap alone, keep its size, and fail exactly where memory has no byte for the next row (R241). -/
theorem drawRows_spec (n r cx cy : Nat) (col : Bool) (s : State) :
    ∃ t : State, t = { s with disp := t.disp } ∧ t.disp.length = s.disp.length ∧
      ((n ≤ s.cfg.memSize - (s.index.toNat + r) ∧ ∃ col', drawRows n r cx cy col s = .ok col' t) ∨
       (s.cfg.memSize - (s.index.toNat + r) < n ∧
        drawRows n r cx cy col s =
          .failed .memRead (s.index.toNat + r + (s.cfg.memSize - (s.index.toNat + r))) t)) := by
  induction n generalizing r col s with
  | zero => exact ⟨s, rfl, rfl, .inl ⟨by omega, col, rfl⟩⟩
  | succ n ih =>
    simp only [drawRows, memRead8_eq]
    by_cases h : s.index.toNat + r < s.cfg.memSize
    · simp only [h, if_true, Access.bind_ok]
      obtain ⟨t, ht, hl, hc⟩ := ih (r + 1)
        (Bitmap.drawByte s.cfg.width ((cy + r) % s.cfg.height) cx
          (Memory.read s.cfg.font s.mem (s.index.toNat + r)) (s.disp, col)).2
        (s.setDisp (Bitmap.drawByte s.cfg.width ((cy + r) % s.cfg.height) cx
          (Memory.read s.cfg.font s.mem (s.index.toNat + r)) (s.disp, col)).1)
      simp only [State.setDisp_cfg, State.setDisp_index, State.setDisp_disp, Bitmap.drawByte_length] at hc hl
      refine ⟨t, by rw [ht]; rfl, hl, ?_⟩
      rcases hc with ⟨hn, hr⟩ | ⟨hn, hr⟩
      · exact .inl ⟨by omega, hr⟩
      · refine .inr ⟨by omega, ?_⟩
        rw [hr, show s.index.toNat + (r + 1) + (s.cfg.memSize - (s.index.toNat + (r + 1))) =
          s.index.toNat + r + (s.cfg.memSize - (s.index.toNat + r)) by omega]
    · exact ⟨s, rfl, rfl, .inr ⟨by omega, by simp [h]; omega⟩⟩

end Sys2Proof.Machine
end

