-- ==== Sys2Proof/Laws/Encoding.lean ====
section
/-! SUPPORT. The fields of packed words, and the bytes of a word put together again (spec/30_encoding.md R112, R113). -/

namespace Sys2Proof

@[simp] theorem fieldF_packNNN (f : BitVec 4) (nnn : BitVec 12) : fieldF (packNNN f nnn) = f := by
  ext j hj
  simp [fieldF, packNNN]
  grind

@[simp] theorem fieldNNN_packNNN (f : BitVec 4) (nnn : BitVec 12) : fieldNNN (packNNN f nnn) = nnn := by
  ext j hj
  simp [fieldNNN, packNNN]
  grind

@[simp] theorem fieldF_packXNN (f : BitVec 4) (x : RegIdx) (nn : Byte) : fieldF (packXNN f x nn) = f := by
  ext j hj
  simp [fieldF, packXNN]
  grind

@[simp] theorem fieldX_packXNN (f : BitVec 4) (x : RegIdx) (nn : Byte) : fieldX (packXNN f x nn) = x := by
  ext j hj
  simp [fieldX, packXNN]
  grind

@[simp] theorem fieldNN_packXNN (f : BitVec 4) (x : RegIdx) (nn : Byte) : fieldNN (packXNN f x nn) = nn := by
  ext j hj
  simp [fieldNN, packXNN]
  grind

@[simp] theorem fieldF_packXYN (f : BitVec 4) (x y : RegIdx) (n : BitVec 4) : fieldF (packXYN f x y n) = f := by
  ext j hj
  simp [fieldF, packXYN]
  grind

@[simp] theorem fieldX_packXYN (f : BitVec 4) (x y : RegIdx) (n : BitVec 4) : fieldX (packXYN f x y n) = x := by
  ext j hj
  simp [fieldX, packXYN]
  grind

@[simp] theorem fieldY_packXYN (f : BitVec 4) (x y : RegIdx) (n : BitVec 4) : fieldY (packXYN f x y n) = y := by
  ext j hj
  simp [fieldY, packXYN]
  grind

@[simp] theorem fieldN_packXYN (f : BitVec 4) (x y : RegIdx) (n : BitVec 4) : fieldN (packXYN f x y n) = n := by
  ext j hj
  simp [fieldN, packXYN]
  grind

/-- A word is its family and its address field (R112). -/
theorem packNNN_fields (w : Word) : packNNN (fieldF w) (fieldNNN w) = w := by
  ext j hj
  simp [fieldF, fieldNNN, packNNN]
  grind

/-- A word is its family, `X` and byte fields (R112). -/
theorem packXNN_fields (w : Word) : packXNN (fieldF w) (fieldX w) (fieldNN w) = w := by
  ext j hj
  simp [fieldF, fieldX, fieldNN, packXNN]
  grind

/-- A word is its four nibbles (R112). -/
theorem packXYN_fields (w : Word) : packXYN (fieldF w) (fieldX w) (fieldY w) (fieldN w) = w := by
  ext j hj
  simp [fieldF, fieldX, fieldY, fieldN, packXYN]
  grind

@[simp] theorem bigEndian_bytes (w : Word) : bigEndian (highByte w) (lowByte w) = w := by
  ext j hj
  simp [bigEndian, highByte, lowByte]
  grind

@[simp] theorem highByte_bigEndian (hi lo : Byte) : highByte (bigEndian hi lo) = hi := by
  ext j hj
  simp [highByte, bigEndian]
  grind

@[simp] theorem lowByte_bigEndian (hi lo : Byte) : lowByte (bigEndian hi lo) = lo := by
  ext j hj
  simp [lowByte, bigEndian]
  grind

end Sys2Proof
end

