-- ==== Sys2Proof/Laws/Step.lean ====
section
/-! SUPPORT. What a step can do, said once (spec/40_execute_cycle.md R142 to R145, R149), and that every meaning has a next state. -/

namespace Sys2Proof.Machine

/-- The word at `pc` and its two bytes. -/
theorem State.wordAtPc_iff (s : State) (w : Word) :
    s.wordAtPc = some w ↔ ∃ hi lo, s.byteAt s.pc.toNat = some hi ∧ s.byteAt (s.pc.toNat + 1) = some lo ∧
      w = bigEndian hi lo := by
  unfold State.wordAtPc
  rw [fetchWord_eq]
  by_cases h : s.pc.toNat + 1 < s.cfg.memSize
  · have h' : s.pc.toNat < s.cfg.memSize := by omega
    simp [h, h', State.byteAt_eq, eq_comm]
  · simp [h, State.byteAt_eq]

theorem State.wordAtPc_none_iff (s : State) : s.wordAtPc = none ↔ s.cfg.memSize ≤ s.pc.toNat + 1 := by
  unfold State.wordAtPc
  rw [fetchWord_eq]
  by_cases h : s.pc.toNat + 1 < s.cfg.memSize
  · simp only [h, if_true]; constructor
    · intro e; cases e
    · omega
  · simp only [h, if_false, true_iff]; omega

/-- The word at `pc` in terms of memory alone. -/
theorem State.wordAtPc_eq (s : State) :
    s.wordAtPc = if s.pc.toNat + 1 < s.cfg.memSize then
      some (bigEndian (Memory.read s.cfg.font s.mem s.pc.toNat) (Memory.read s.cfg.font s.mem (s.pc.toNat + 1)))
    else none := by
  unfold State.wordAtPc
  rw [fetchWord_eq]
  by_cases h : s.pc.toNat + 1 < s.cfg.memSize <;> simp [h]

/-- The instruction at `pc` depends on `pc`, memory and the configuration alone. -/
theorem State.instrAtPc_congr {s t : State} (hp : t.pc = s.pc) (hm : t.mem = s.mem) (hc : t.cfg = s.cfg) :
    t.instrAtPc = s.instrAtPc := by
  simp only [State.instrAtPc, State.wordAtPc_eq, hp, hm, hc]

/-- Legality depends on the stack, the bitmap, memory, `pc`, mode, error and the configuration alone. -/
theorem State.legal_congr {s t : State} (hp : t.pc = s.pc) (hm : t.mem = s.mem) (hc : t.cfg = s.cfg)
    (hs : t.stack = s.stack) (hsp : t.sp = s.sp) (hd : t.disp = s.disp) (hmo : t.mode = s.mode) (he : t.err = s.err) :
    t.legal = s.legal := by
  simp only [State.legal, State.stackOk, State.dispOk, State.memOk, State.errOk, State.waitOk,
    State.instrAtPc_congr hp hm hc, hm, hc, hs, hsp, hd, hmo, he]

/-- The first byte address a fetch does not find (R144). -/
theorem fetchWord_cases (s : State) :
    (∃ w, s.wordAtPc = some w ∧ fetchWord s = .ok w s) ∨
    (s.wordAtPc = none ∧ s.cfg.memSize ≤ s.pc.toNat + 1 ∧ fetchWord s =
      .failed .fetch (if s.cfg.memSize ≤ s.pc.toNat then s.pc.toNat else s.pc.toNat + 1) s) := by
  by_cases h : s.pc.toNat + 1 < s.cfg.memSize
  · exact .inl ⟨_, by unfold State.wordAtPc; rw [fetchWord_eq, if_pos h], by rw [fetchWord_eq, if_pos h]⟩
  · exact .inr ⟨(s.wordAtPc_none_iff).2 (by omega), by omega, by rw [fetchWord_eq, if_neg h]⟩

/-- Everything a step can be: nothing in HALTED, a failed fetch, an unknown word in RUNNING, a broken key wait, or `exec` of
the instruction at `pc`. -/
theorem step_cases (s : State) :
    (s.mode = .halted ∧ step s = .next s) ∨
    (s.mode ≠ .halted ∧ s.wordAtPc = none ∧ step s =
      .next (s.failFetch (if s.cfg.memSize ≤ s.pc.toNat then s.pc.toNat else s.pc.toNat + 1))) ∨
    (∃ w, s.mode = .running ∧ s.wordAtPc = some w ∧ decodeWord w = none ∧ step s = .next (s.failDecode w)) ∨
    (∃ w, s.mode = .awaitingKey ∧ s.wordAtPc = some w ∧ (∀ x, decodeWord w ≠ some (.ldK x)) ∧
      step s = .fault .keyWaitBroken) ∨
    (∃ w i, s.wordAtPc = some w ∧ decodeWord w = some i ∧ s.instrAtPc = some i ∧
      (s.mode = .running ∨ s.mode = .awaitingKey ∧ ∃ x, i = .ldK x) ∧ step s = exec i s) := by
  rcases hm : s.mode with _ | _ | _
  · rcases fetchWord_cases s with ⟨w, hw, hf⟩ | ⟨hw, -, hf⟩
    · rcases hd : decodeWord w with _ | i
      · exact .inr (.inr (.inl ⟨w, rfl, hw, hd, by simp [step, prologue, hm, hf, decodeRunning, hd]⟩))
      · exact .inr (.inr (.inr (.inr ⟨w, i, hw, hd, by simp [State.instrAtPc, hw, hd], .inl rfl,
          by simp [step, prologue, hm, hf, decodeRunning, hd]⟩)))
    · exact .inr (.inl ⟨by simp, hw, by simp [step, prologue, hm, hf]⟩)
  · rcases fetchWord_cases s with ⟨w, hw, hf⟩ | ⟨hw, -, hf⟩
    · rcases hd : decodeWord w with _ | i
      · exact .inr (.inr (.inr (.inl ⟨w, rfl, hw, by simp [hd], by simp [step, prologue, hm, hf, decodeAwaiting, hd]⟩)))
      · by_cases hk : isKeyWait i = true
        · have hx : ∃ x, i = .ldK x := by cases i <;> first | exact ⟨_, rfl⟩ | cases hk
          exact .inr (.inr (.inr (.inr ⟨w, i, hw, hd, by simp [State.instrAtPc, hw, hd], .inr ⟨rfl, hx⟩,
            by simp [step, prologue, hm, hf, decodeAwaiting, hd, hk]⟩)))
        · refine .inr (.inr (.inr (.inl ⟨w, rfl, hw, fun x hx => hk ?_, by
            simp [step, prologue, hm, hf, decodeAwaiting, hd, hk]⟩)))
          rw [hd] at hx; cases hx; rfl
    · exact .inr (.inl ⟨by simp, hw, by simp [step, prologue, hm, hf]⟩)
  · exact .inl ⟨rfl, by simp [step, prologue, hm]⟩

/-- The end of a checked instruction is a next state whatever the access answers. -/
theorem Access.conclude_next {α : Type} (A : Addr) (w : Word) (k : α → State → State) (r : Access α) :
    ∃ t, r.conclude A w k = .next t := by
  cases r <;> exact ⟨_, rfl⟩

/-- Every meaning answers a next state in every state: failures are taken, not stopped on (R150, R151). -/
theorem exec_next (i : Instr) (s : State) : ∃ t, exec i s = .next t := by
  cases i
  case ldK x =>
    simp only [exec, execLdK]
    rcases s.mode with _ | _ | _
    · exact ⟨_, rfl⟩
    · rcases s.latch with _ | k <;> exact ⟨_, rfl⟩
    · exact ⟨_, rfl⟩
  all_goals first | exact ⟨_, rfl⟩ | exact Access.conclude_next _ _ _ _

end Sys2Proof.Machine
end

