-- ==== Sys2Proof/Laws/Exec.lean ====
section
/-! SUPPORT. What each meaning may change, said once for all instructions, and the same for a step. -/

namespace Sys2Proof.Machine

/-- Which fields the meaning of `i` may change between `s` and its next state `t` (spec/10_state.md R32, R35, R40, R41, R48, R51). -/
def ExecShape (i : Instr) (s t : State) : Prop :=
  match i with
  | .cls => t = { s with pc := t.pc, disp := t.disp }
  | .ret => t = { s with pc := t.pc, sp := t.sp, mode := t.mode, err := t.err }
  | .call _ => t = { s with pc := t.pc, sp := t.sp, stack := t.stack, mode := t.mode, err := t.err }
  | .jp _ | .jpV0 _ | .seByte _ _ | .sneByte _ _ | .seReg _ _ | .sneReg _ _ => t = { s with pc := t.pc }
  | .skp _ | .sknp _ => t = { s with pc := t.pc, mode := t.mode, err := t.err }
  | .ldI _ | .addI _ | .ldF _ => t = { s with pc := t.pc, index := t.index }
  | .ldB _ | .ldStore _ => t = { s with pc := t.pc, mem := t.mem, mode := t.mode, err := t.err }
  | .ldLoad x => t = { s with pc := t.pc, regs := t.regs, mode := t.mode, err := t.err } ∧ ∀ k, x.toNat < k.toNat → t.v k = s.v k
  | .drw _ _ _ => t = { s with pc := t.pc, regs := t.regs, disp := t.disp, mode := t.mode, err := t.err } ∧ ∀ k, k ≠ vf → t.v k = s.v k
  | .ldDT x => t = { s with pc := t.pc, dt := s.v x }
  | .ldST x => t = { s with pc := t.pc, st := s.v x }
  | .rnd x _ => t = { s with pc := t.pc, regs := t.regs, draws := t.draws } ∧ ∀ k, k ≠ x → t.v k = s.v k
  | .ldK x => t = { s with pc := t.pc, regs := t.regs, latch := none, mode := t.mode } ∧ (∀ k, k ≠ x → t.v k = s.v k) ∨ t = s
  | .ldByte x _ | .addByte x _ | .ldReg x _ | .orReg x _ | .andReg x _ | .xorReg x _ | .ldFromDT x =>
      t = { s with pc := t.pc, regs := t.regs } ∧ ∀ k, k ≠ x → t.v k = s.v k
  | .addReg x _ | .subReg x _ | .shr x | .subn x _ | .shl x =>
      t = { s with pc := t.pc, regs := t.regs } ∧ ∀ k, k ≠ x → k ≠ vf → t.v k = s.v k

/-- Every meaning has its shape: said once, so that rules about all instructions follow by cases. -/
theorem exec_shape (i : Instr) (s t : State) (h : exec i s = .next t) : ExecShape i s t := by
  cases i
  case ret => 
    simp only [exec, execRet, popStack_eq] at h
    split at h <;> (simp at h; subst h; rfl)
  case call => 
    simp only [exec, execCall, pushStack_eq] at h
    split at h <;> (simp at h; subst h; rfl)
  case skp =>
    simp only [exec, execSkp] at h
    rcases keyIsDown_cases (s.v _) s.advance with ⟨_, e⟩ | ⟨_, e⟩ <;> rw [e] at h <;> (simp [keySkip] at h; (try split at h) <;> (subst h; rfl))
  case sknp =>
    simp only [exec, execSknp] at h
    rcases keyIsDown_cases (s.v _) s.advance with ⟨_, e⟩ | ⟨_, e⟩ <;> rw [e] at h <;> (simp [keySkip] at h; (try split at h) <;> (subst h; rfl))
  case ldB =>
    simp only [exec, execLdB, storeBytes_eq] at h
    split at h <;> (simp at h; subst h; simp only [ExecShape]; ext1 <;> simp)
  case ldStore =>
    simp only [exec, execLdStore, storeBytes_eq] at h
    split at h <;> (simp at h; subst h; simp only [ExecShape]; ext1 <;> simp)
  case ldLoad x =>
    simp only [exec, execLdLoad] at h
    obtain ⟨u, hu, hv, he⟩ := loadRegs_spec (x.toNat + 1) 0 s.base s.advance (by have := x.isLt; omega)
    have hk : ∀ k : RegIdx, x.toNat < k.toNat → u.v k = s.v k := by
      intro k hk
      rw [hv k, if_neg (by omega)]; rfl
    rw [he] at h
    split at h <;> (simp at h; subst h; refine ⟨?_, fun k hk' => ?_⟩ <;> [(rw [hu]; rfl); exact hk k hk'])
  case drw x y n =>
    simp only [exec, execDrw] at h
    obtain ⟨u, hu, hl, hc⟩ := drawRows_spec n.toNat 0 (s.v x).toNat (s.v y).toNat false (s.advance.setV vf 0)
    have hk : ∀ k : RegIdx, k ≠ vf → u.v k = s.v k := by
      intro k hk; rw [hu]; show (s.advance.setV vf 0).v k = _; rw [State.v_setV_ne _ _ _ _ hk]; rfl
    rcases hc with ⟨_, c', hr⟩ | ⟨_, hr⟩ <;> rw [hr] at h <;> simp at h <;> subst h
    · refine ⟨by rw [hu]; rfl, fun k hk' => ?_⟩
      rw [State.v_setV_ne _ _ _ _ hk']; exact hk k hk'
    · refine ⟨by rw [hu]; rfl, fun k hk' => hk k hk'⟩
  case ldK x =>
    simp only [exec, execLdK] at h
    split at h
    · simp at h; subst h; exact .inl ⟨rfl, fun _ _ => rfl⟩
    · split at h
      · next hl => simp at h; subst h; left; exact ⟨by ext1 <;> simp [hl], fun _ _ => rfl⟩
      · simp at h; subst h; left; exact ⟨rfl, fun k hk => State.v_setV_ne _ _ _ _ hk⟩
    · simp at h; exact .inr h.symm
  all_goals simp only [exec, execCls, execJp, execJpV0, execSeByte, execSneByte, execSeReg, execSneReg, execLdI, execAddI,
    execLdF, execLdDT, execLdST, execRnd, execLdByte, execAddByte, execLdReg, execOrReg, execAndReg, execXorReg,
    execLdFromDT, execAddReg, execSubReg, execShr, execSubn, execShl, Host.Outcome.next.injEq, State.skipIf_eq] at h
  all_goals subst h
  all_goals first
    | rfl
    | exact ⟨rfl, fun k hk => State.v_setV_ne _ _ _ _ hk⟩
    | exact ⟨rfl, fun k hk hk' => by rw [State.writeWithFlag_v, if_neg hk', if_neg hk]; rfl⟩

/-- Everything a step that has a next state can be. -/
theorem step_shape (s t : State) (h : step s = .next t) :
    (s.mode = .halted ∧ t = s) ∨
    (s.wordAtPc = none ∧ s.mode ≠ .halted ∧ ∃ ix, t = s.failFetch ix) ∨
    (∃ w, s.mode = .running ∧ s.wordAtPc = some w ∧ decodeWord w = none ∧ t = s.failDecode w) ∨
    ∃ i, s.instrAtPc = some i ∧ ExecShape i s t ∧ exec i s = .next t ∧
      (s.mode = .running ∨ s.mode = .awaitingKey ∧ ∃ x, i = .ldK x) := by
  rcases step_cases s with h' | h' | ⟨w, h'⟩ | ⟨w, h'⟩ | ⟨w, j, h'⟩
  · left; simp_all
  · right; left; refine ⟨h'.2.1, h'.1, ?_⟩; rw [h'.2.2] at h; simp at h; exact ⟨_, h.symm⟩
  · right; right; left; refine ⟨w, h'.1, h'.2.1, h'.2.2.1, ?_⟩; rw [h'.2.2.2] at h; simp at h; exact h.symm
  · simp_all
  · right; right; right; rw [h'.2.2.2.2] at h; exact ⟨j, h'.2.2.1, exec_shape _ _ _ h, h, h'.2.2.2.1⟩

end Sys2Proof.Machine
end

