-- ==== Sys2Proof/Laws/PerInstr.lean ====
section
/-! SUPPORT. Per instruction: its encoded word bears the fixed bits of its row of spec/opcode_table.json (30_encoding.md R125). -/

namespace Sys2Proof

theorem packXYN_and (f x y n f' x' y' n' : BitVec 4) :
    packXYN f x y n &&& packXYN f' x' y' n' = packXYN (f &&& f') (x &&& x') (y &&& y') (n &&& n') := by
  ext j hj
  simp [packXYN]
  grind

theorem packXNN_and (f x f' x' : BitVec 4) (n n' : Byte) :
    packXNN f x n &&& packXNN f' x' n' = packXNN (f &&& f') (x &&& x') (n &&& n') := by
  ext j hj
  simp [packXNN]
  grind

theorem packNNN_and (f f' : BitVec 4) (n n' : BitVec 12) :
    packNNN f n &&& packNNN f' n' = packNNN (f &&& f') (n &&& n') := by
  ext j hj
  simp [packNNN]
  grind

end Sys2Proof

namespace Sys2Proof.Laws.EncodeMatchesTable

/-- The row's `mask`: its fixed bits. -/
def tableMask : Instr → Word
  | .cls => 0xFFFF
  | .ret => 0xFFFF
  | .jp _ => 0xF000
  | .call _ => 0xF000
  | .seByte _ _ => 0xF000
  | .sneByte _ _ => 0xF000
  | .seReg _ _ => 0xF00F
  | .ldByte _ _ => 0xF000
  | .addByte _ _ => 0xF000
  | .ldReg _ _ => 0xF00F
  | .orReg _ _ => 0xF00F
  | .andReg _ _ => 0xF00F
  | .xorReg _ _ => 0xF00F
  | .addReg _ _ => 0xF00F
  | .subReg _ _ => 0xF00F
  | .shr _ => 0xF00F
  | .subn _ _ => 0xF00F
  | .shl _ => 0xF00F
  | .sneReg _ _ => 0xF00F
  | .ldI _ => 0xF000
  | .jpV0 _ => 0xF000
  | .rnd _ _ => 0xF000
  | .drw _ _ _ => 0xF000
  | .skp _ => 0xF0FF
  | .sknp _ => 0xF0FF
  | .ldFromDT _ => 0xF0FF
  | .ldK _ => 0xF0FF
  | .ldDT _ => 0xF0FF
  | .ldST _ => 0xF0FF
  | .addI _ => 0xF0FF
  | .ldF _ => 0xF0FF
  | .ldB _ => 0xF0FF
  | .ldStore _ => 0xF0FF
  | .ldLoad _ => 0xF0FF

/-- The row's `match`: the values of its fixed bits. -/
def tableMatch : Instr → Word
  | .cls => 0x00E0
  | .ret => 0x00EE
  | .jp _ => 0x1000
  | .call _ => 0x2000
  | .seByte _ _ => 0x3000
  | .sneByte _ _ => 0x4000
  | .seReg _ _ => 0x5000
  | .ldByte _ _ => 0x6000
  | .addByte _ _ => 0x7000
  | .ldReg _ _ => 0x8000
  | .orReg _ _ => 0x8001
  | .andReg _ _ => 0x8002
  | .xorReg _ _ => 0x8003
  | .addReg _ _ => 0x8004
  | .subReg _ _ => 0x8005
  | .shr _ => 0x8006
  | .subn _ _ => 0x8007
  | .shl _ => 0x800E
  | .sneReg _ _ => 0x9000
  | .ldI _ => 0xA000
  | .jpV0 _ => 0xB000
  | .rnd _ _ => 0xC000
  | .drw _ _ _ => 0xD000
  | .skp _ => 0xE09E
  | .sknp _ => 0xE0A1
  | .ldFromDT _ => 0xF007
  | .ldK _ => 0xF00A
  | .ldDT _ => 0xF015
  | .ldST _ => 0xF018
  | .addI _ => 0xF01E
  | .ldF _ => 0xF029
  | .ldB _ => 0xF033
  | .ldStore _ => 0xF055
  | .ldLoad _ => 0xF065

/-- The word of the instruction bears its row's fixed bits. -/
def Statement (i : Instr) : Prop := encode i &&& tableMask i = tableMatch i

theorem cls : Statement .cls := rfl
theorem ret : Statement .ret := rfl
theorem jp (nnn : BitVec 12) : Statement (.jp nnn) := by
  simp only [Statement, encode, tableMask, tableMatch]
  rw [show (0xF000 : Word) = packNNN 0xF 0 from rfl, packNNN_and]
  simp
  rfl
theorem call (nnn : BitVec 12) : Statement (.call nnn) := by
  simp only [Statement, encode, tableMask, tableMatch]
  rw [show (0xF000 : Word) = packNNN 0xF 0 from rfl, packNNN_and]
  simp
  rfl
theorem seByte (x : RegIdx) (nn : Byte) : Statement (.seByte x nn) := by
  simp only [Statement, encode, tableMask, tableMatch]
  rw [show (0xF000 : Word) = packXNN 0xF 0 0 from rfl, packXNN_and]
  simp
  rfl
theorem sneByte (x : RegIdx) (nn : Byte) : Statement (.sneByte x nn) := by
  simp only [Statement, encode, tableMask, tableMatch]
  rw [show (0xF000 : Word) = packXNN 0xF 0 0 from rfl, packXNN_and]
  simp
  rfl
theorem seReg (x : RegIdx) (y : RegIdx) : Statement (.seReg x y) := by
  simp only [Statement, encode, tableMask, tableMatch]
  rw [show (0xF00F : Word) = packXYN 0xF 0 0 0xF from rfl, packXYN_and]
  simp
  rfl
theorem ldByte (x : RegIdx) (nn : Byte) : Statement (.ldByte x nn) := by
  simp only [Statement, encode, tableMask, tableMatch]
  rw [show (0xF000 : Word) = packXNN 0xF 0 0 from rfl, packXNN_and]
  simp
  rfl
theorem addByte (x : RegIdx) (nn : Byte) : Statement (.addByte x nn) := by
  simp only [Statement, encode, tableMask, tableMatch]
  rw [show (0xF000 : Word) = packXNN 0xF 0 0 from rfl, packXNN_and]
  simp
  rfl
theorem ldReg (x : RegIdx) (y : RegIdx) : Statement (.ldReg x y) := by
  simp only [Statement, encode, tableMask, tableMatch]
  rw [show (0xF00F : Word) = packXYN 0xF 0 0 0xF from rfl, packXYN_and]
  simp
  rfl
theorem orReg (x : RegIdx) (y : RegIdx) : Statement (.orReg x y) := by
  simp only [Statement, encode, tableMask, tableMatch]
  rw [show (0xF00F : Word) = packXYN 0xF 0 0 0xF from rfl, packXYN_and]
  simp
  rfl
theorem andReg (x : RegIdx) (y : RegIdx) : Statement (.andReg x y) := by
  simp only [Statement, encode, tableMask, tableMatch]
  rw [show (0xF00F : Word) = packXYN 0xF 0 0 0xF from rfl, packXYN_and]
  simp
  rfl
theorem xorReg (x : RegIdx) (y : RegIdx) : Statement (.xorReg x y) := by
  simp only [Statement, encode, tableMask, tableMatch]
  rw [show (0xF00F : Word) = packXYN 0xF 0 0 0xF from rfl, packXYN_and]
  simp
  rfl
theorem addReg (x : RegIdx) (y : RegIdx) : Statement (.addReg x y) := by
  simp only [Statement, encode, tableMask, tableMatch]
  rw [show (0xF00F : Word) = packXYN 0xF 0 0 0xF from rfl, packXYN_and]
  simp
  rfl
theorem subReg (x : RegIdx) (y : RegIdx) : Statement (.subReg x y) := by
  simp only [Statement, encode, tableMask, tableMatch]
  rw [show (0xF00F : Word) = packXYN 0xF 0 0 0xF from rfl, packXYN_and]
  simp
  rfl
theorem shr (x : RegIdx) : Statement (.shr x) := by
  simp only [Statement, encode, tableMask, tableMatch]
  rw [show (0xF00F : Word) = packXYN 0xF 0 0 0xF from rfl, packXYN_and]
  simp
  rfl
theorem subn (x : RegIdx) (y : RegIdx) : Statement (.subn x y) := by
  simp only [Statement, encode, tableMask, tableMatch]
  rw [show (0xF00F : Word) = packXYN 0xF 0 0 0xF from rfl, packXYN_and]
  simp
  rfl
theorem shl (x : RegIdx) : Statement (.shl x) := by
  simp only [Statement, encode, tableMask, tableMatch]
  rw [show (0xF00F : Word) = packXYN 0xF 0 0 0xF from rfl, packXYN_and]
  simp
  rfl
theorem sneReg (x : RegIdx) (y : RegIdx) : Statement (.sneReg x y) := by
  simp only [Statement, encode, tableMask, tableMatch]
  rw [show (0xF00F : Word) = packXYN 0xF 0 0 0xF from rfl, packXYN_and]
  simp
  rfl
theorem ldI (nnn : BitVec 12) : Statement (.ldI nnn) := by
  simp only [Statement, encode, tableMask, tableMatch]
  rw [show (0xF000 : Word) = packNNN 0xF 0 from rfl, packNNN_and]
  simp
  rfl
theorem jpV0 (nnn : BitVec 12) : Statement (.jpV0 nnn) := by
  simp only [Statement, encode, tableMask, tableMatch]
  rw [show (0xF000 : Word) = packNNN 0xF 0 from rfl, packNNN_and]
  simp
  rfl
theorem rnd (x : RegIdx) (nn : Byte) : Statement (.rnd x nn) := by
  simp only [Statement, encode, tableMask, tableMatch]
  rw [show (0xF000 : Word) = packXNN 0xF 0 0 from rfl, packXNN_and]
  simp
  rfl
theorem drw (x : RegIdx) (y : RegIdx) (n : BitVec 4) : Statement (.drw x y n) := by
  simp only [Statement, encode, tableMask, tableMatch]
  rw [show (0xF000 : Word) = packXYN 0xF 0 0 0 from rfl, packXYN_and]
  simp
  rfl
theorem skp (x : RegIdx) : Statement (.skp x) := by
  simp only [Statement, encode, tableMask, tableMatch]
  rw [show (0xF0FF : Word) = packXNN 0xF 0 0xFF from rfl, packXNN_and]
  simp
  rfl
theorem sknp (x : RegIdx) : Statement (.sknp x) := by
  simp only [Statement, encode, tableMask, tableMatch]
  rw [show (0xF0FF : Word) = packXNN 0xF 0 0xFF from rfl, packXNN_and]
  simp
  rfl
theorem ldFromDT (x : RegIdx) : Statement (.ldFromDT x) := by
  simp only [Statement, encode, tableMask, tableMatch]
  rw [show (0xF0FF : Word) = packXNN 0xF 0 0xFF from rfl, packXNN_and]
  simp
  rfl
theorem ldK (x : RegIdx) : Statement (.ldK x) := by
  simp only [Statement, encode, tableMask, tableMatch]
  rw [show (0xF0FF : Word) = packXNN 0xF 0 0xFF from rfl, packXNN_and]
  simp
  rfl
theorem ldDT (x : RegIdx) : Statement (.ldDT x) := by
  simp only [Statement, encode, tableMask, tableMatch]
  rw [show (0xF0FF : Word) = packXNN 0xF 0 0xFF from rfl, packXNN_and]
  simp
  rfl
theorem ldST (x : RegIdx) : Statement (.ldST x) := by
  simp only [Statement, encode, tableMask, tableMatch]
  rw [show (0xF0FF : Word) = packXNN 0xF 0 0xFF from rfl, packXNN_and]
  simp
  rfl
theorem addI (x : RegIdx) : Statement (.addI x) := by
  simp only [Statement, encode, tableMask, tableMatch]
  rw [show (0xF0FF : Word) = packXNN 0xF 0 0xFF from rfl, packXNN_and]
  simp
  rfl
theorem ldF (x : RegIdx) : Statement (.ldF x) := by
  simp only [Statement, encode, tableMask, tableMatch]
  rw [show (0xF0FF : Word) = packXNN 0xF 0 0xFF from rfl, packXNN_and]
  simp
  rfl
theorem ldB (x : RegIdx) : Statement (.ldB x) := by
  simp only [Statement, encode, tableMask, tableMatch]
  rw [show (0xF0FF : Word) = packXNN 0xF 0 0xFF from rfl, packXNN_and]
  simp
  rfl
theorem ldStore (x : RegIdx) : Statement (.ldStore x) := by
  simp only [Statement, encode, tableMask, tableMatch]
  rw [show (0xF0FF : Word) = packXNN 0xF 0 0xFF from rfl, packXNN_and]
  simp
  rfl
theorem ldLoad (x : RegIdx) : Statement (.ldLoad x) := by
  simp only [Statement, encode, tableMask, tableMatch]
  rw [show (0xF0FF : Word) = packXNN 0xF 0 0xFF from rfl, packXNN_and]
  simp
  rfl

end Sys2Proof.Laws.EncodeMatchesTable
end

