-- ==== Sys2Proof/Laws/Raster.lean ====
section
/-! SUPPORT. What the rasterizer does to pixels and to `collided` (spec/44_display.md R241, R242): the sprite as a list of bits,
each with the pixel it lands on; first for every display, then where no two bits share a pixel. -/

namespace Sys2Proof.Machine

/-- A sprite bit and the pixel it lands on. -/
structure PlacedBit where
  row : Nat
  col : Nat
  bit : Bool

/-- The bits drawn one after the other. -/
def drawBits (w : Nat) (bits : List PlacedBit) (p : Bitmap × Bool) : Bitmap × Bool :=
  bits.foldl (fun q e => Bitmap.drawBit w e.row e.col e.bit q) p

/-- A pixel after one sprite bit. -/
theorem Bitmap.pixel_drawBit (w r c : Nat) (b : Bool) (p : Bitmap × Bool) (r' c' : Nat) (hc : c < w) (hc' : c' < w)
    (hd : r * w + c < p.1.length) :
    Bitmap.pixel w (Bitmap.drawBit w r c b p).1 r' c' =
      if r' = r ∧ c' = c then Bool.xor (Bitmap.pixel w p.1 r' c') b else Bitmap.pixel w p.1 r' c' := by
  unfold Bitmap.drawBit
  cases b
  · simp
  · simp only [if_true]
    rw [Bitmap.pixel_setPixel _ _ _ _ _ _ _ hc hc' hd]
    split
    · next h => rw [h.1, h.2]
    · rfl

/-- `collided` after one sprite bit. -/
theorem Bitmap.drawBit_collided (w r c : Nat) (b : Bool) (p : Bitmap × Bool) :
    (Bitmap.drawBit w r c b p).2 = (p.2 || (b && Bitmap.pixel w p.1 r c)) := by
  unfold Bitmap.drawBit; cases b <;> simp

@[simp] theorem drawBits_length (w : Nat) (bits : List PlacedBit) (p : Bitmap × Bool) :
    (drawBits w bits p).1.length = p.1.length := by
  induction bits generalizing p with
  | nil => rfl
  | cons e bits ih => exact (ih _).trans (Bitmap.drawBit_length w e.row e.col e.bit p)

/-- A pixel after bits in order: each bit that lands on it is XORed onto what the earlier ones left (R242). -/
theorem drawBits_pixel (w : Nat) (bits : List PlacedBit) (p : Bitmap × Bool)
    (hin : ∀ e ∈ bits, e.col < w ∧ e.row * w + e.col < p.1.length) (r c : Nat) (hc : c < w) :
    Bitmap.pixel w (drawBits w bits p).1 r c =
      bits.foldl (fun on e => if e.row = r ∧ e.col = c then Bool.xor on e.bit else on) (Bitmap.pixel w p.1 r c) := by
  induction bits generalizing p with
  | nil => rfl
  | cons e bits ih =>
    have he := hin e (by simp)
    have h := ih (Bitmap.drawBit w e.row e.col e.bit p) fun f hf => by simpa using hin f (by simp [hf])
    rw [Bitmap.pixel_drawBit _ _ _ _ _ _ _ he.1 hc he.2] at h
    simpa only [drawBits, List.foldl_cons, eq_comm] using h

/-- `collided` after bits in order: it was set, or some bit 1 meets a pixel the bits before it left on (R242). -/
theorem drawBits_collided (w : Nat) (bits : List PlacedBit) (p : Bitmap × Bool) :
    (drawBits w bits p).2 = true ↔ p.2 = true ∨ ∃ k e, bits[k]? = some e ∧ e.bit = true ∧
      Bitmap.pixel w (drawBits w (bits.take k) p).1 e.row e.col = true := by
  induction bits generalizing p with
  | nil => simp [drawBits]
  | cons e bits ih =>
    refine (ih (Bitmap.drawBit w e.row e.col e.bit p)).trans ?_
    rw [Bitmap.drawBit_collided, Bool.or_eq_true, Bool.and_eq_true, or_assoc]
    refine or_congr_right ⟨?_, ?_⟩
    · rintro (h | ⟨k, f, hk, hf⟩)
      · exact ⟨0, e, rfl, h⟩
      · exact ⟨k + 1, f, hk, hf⟩
    · rintro ⟨_ | k, f, hk, hf⟩
      · cases hk
        exact .inl hf
      · exact .inr ⟨k, f, hk, hf⟩

/-- Drawing bits that share no pixel: each is XORed onto its pixel, every other pixel stays, and `collided` is set by a bit 1
over a pixel that was on. -/
theorem drawBits_spec (w : Nat) (bits : List PlacedBit) (p : Bitmap × Bool)
    (hin : ∀ e ∈ bits, e.col < w ∧ e.row * w + e.col < p.1.length)
    (hd : bits.Pairwise fun e f => ¬ (e.row = f.row ∧ e.col = f.col)) :
    (∀ e ∈ bits, Bitmap.pixel w (drawBits w bits p).1 e.row e.col =
      Bool.xor (Bitmap.pixel w p.1 e.row e.col) e.bit) ∧
    (∀ r c, c < w → (∀ e ∈ bits, ¬ (r = e.row ∧ c = e.col)) →
      Bitmap.pixel w (drawBits w bits p).1 r c = Bitmap.pixel w p.1 r c) ∧
    (drawBits w bits p).2 = (p.2 || bits.any fun e => e.bit && Bitmap.pixel w p.1 e.row e.col) := by
  induction bits generalizing p with
  | nil => simp [drawBits]
  | cons e bits ih =>
    rw [List.pairwise_cons] at hd
    have he := hin e (by simp)
    obtain ⟨h1, h2, h3⟩ := ih (Bitmap.drawBit w e.row e.col e.bit p)
      (fun f hf => by simpa using hin f (by simp [hf])) hd.2
    have hstep : drawBits w (e :: bits) p = drawBits w bits (Bitmap.drawBit w e.row e.col e.bit p) := rfl
    rw [hstep]
    have hpix : ∀ f ∈ bits, Bitmap.pixel w (Bitmap.drawBit w e.row e.col e.bit p).1 f.row f.col =
        Bitmap.pixel w p.1 f.row f.col := by
      intro f hf
      rw [Bitmap.pixel_drawBit _ _ _ _ _ _ _ he.1 (hin f (by simp [hf])).1 he.2,
        if_neg fun h => hd.1 f hf ⟨h.1.symm, h.2.symm⟩]
    refine ⟨fun f hf => ?_, fun r c hc hn => ?_, ?_⟩
    · rcases List.mem_cons.1 hf with rfl | hf'
      · rw [h2 _ _ he.1 hd.1, Bitmap.pixel_drawBit _ _ _ _ _ _ _ he.1 he.1 he.2, if_pos ⟨rfl, rfl⟩]
      · rw [h1 f hf', hpix f hf']
    · rw [h2 r c hc (fun g hg => hn g (by simp [hg])), Bitmap.pixel_drawBit _ _ _ _ _ _ _ he.1 hc he.2,
        if_neg (hn e (by simp))]
    · rw [h3, Bitmap.drawBit_collided, List.any_cons, Bool.or_assoc]
      congr 2
      rw [Bool.eq_iff_iff, List.any_eq_true, List.any_eq_true]
      exact exists_congr fun f => and_congr_right fun hf => by rw [hpix f hf]

/-- The eight bits of sprite row `r`, each at its wrapped pixel. -/
def rowBits (s : State) (cx cy r : Nat) : List PlacedBit :=
  (List.range 8).map fun c =>
    ⟨(cy + r) % s.cfg.height, (cx + c) % s.cfg.width,
      (Memory.read s.cfg.font s.mem (s.index.toNat + r)).getLsbD (7 - c)⟩

/-- Drawing changes no sprite byte and no coordinate. -/
@[simp] theorem rowBits_setDisp (s : State) (d : Bitmap) (cx cy : Nat) : rowBits (s.setDisp d) cx cy = rowBits s cx cy := rfl

/-- The bits of sprite rows `r` to `r + n - 1`. -/
def spriteBits (s : State) (cx cy r n : Nat) : List PlacedBit := (List.range' r n).flatMap (rowBits s cx cy)

/-- Everything drawing rows can do: the rows in memory are drawn bit by bit, and the first row outside it fails. -/
theorem drawRows_eq (n r cx cy : Nat) (col : Bool) (s : State) :
    drawRows n r cx cy col s =
      if n ≤ s.cfg.memSize - (s.index.toNat + r) then
        .ok (drawBits s.cfg.width (spriteBits s cx cy r n) (s.disp, col)).2
          (s.setDisp (drawBits s.cfg.width (spriteBits s cx cy r n) (s.disp, col)).1)
      else
        .failed .memRead (s.index.toNat + r + (s.cfg.memSize - (s.index.toNat + r)))
          (s.setDisp (drawBits s.cfg.width
            (spriteBits s cx cy r (s.cfg.memSize - (s.index.toNat + r))) (s.disp, col)).1) := by
  induction n generalizing r col s with
  | zero => rw [if_pos (by omega)]; rfl
  | succ n ih =>
    rw [drawRows, memRead8_eq]
    by_cases h : s.index.toNat + r < s.cfg.memSize
    · obtain ⟨m, hm⟩ : ∃ m, s.cfg.memSize - (s.index.toNat + r) = m + 1 := ⟨s.cfg.memSize - (s.index.toNat + r) - 1, by omega⟩
      rw [if_pos h, Access.bind_ok, ih, State.setDisp_cfg, State.setDisp_index, hm,
        show s.cfg.memSize - (s.index.toNat + (r + 1)) = m by omega,
        show s.index.toNat + (r + 1) + m = s.index.toNat + r + (m + 1) by omega]
      simp only [spriteBits, rowBits_setDisp, List.range'_succ, List.flatMap_cons, Nat.add_le_add_iff_right, drawBits,
        List.foldl_append, Bitmap.drawByte, State.setDisp_disp, rowBits, List.foldl_map]
      rfl
    · rw [if_neg h, if_neg (by omega), show s.cfg.memSize - (s.index.toNat + r) = 0 by omega]
      rfl

/-- Which bits a sprite has. -/
theorem mem_spriteBits (s : State) (cx cy n : Nat) (e : PlacedBit) :
    e ∈ spriteBits s cx cy 0 n ↔ ∃ r c, r < n ∧ c < 8 ∧
      e = ⟨(cy + r) % s.cfg.height, (cx + c) % s.cfg.width,
        (Memory.read s.cfg.font s.mem (s.index.toNat + r)).getLsbD (7 - c)⟩ := by
  simp only [spriteBits, List.mem_flatMap, List.mem_range', rowBits, List.mem_map, List.mem_range]
  constructor
  · rintro ⟨r, ⟨i, hi, rfl⟩, c, hc, rfl⟩; exact ⟨_, c, by omega, hc, rfl⟩
  · rintro ⟨r, c, hr, hc, rfl⟩; exact ⟨r, ⟨r, hr, by omega⟩, c, hc, rfl⟩

theorem add_mod_inj {a w m c c' : Nat} (hw : m ≤ w) (hc : c < m) (hc' : c' < m) (h : (a + c) % w = (a + c') % w) :
    c = c' :=
  Nat.ModEq.eq_of_lt_of_lt (Nat.ModEq.add_left_cancel' a h : c % w = c' % w) (by omega) (by omega)

/-- On a display at least 8 columns wide and as high as the sprite, no two bits share a pixel (R242). -/
theorem spriteBits_pairwise (s : State) (cx cy n : Nat) (hw : 8 ≤ s.cfg.width) (hn : n ≤ s.cfg.height) :
    (spriteBits s cx cy 0 n).Pairwise fun e f => ¬ (e.row = f.row ∧ e.col = f.col) := by
  rw [spriteBits, List.pairwise_flatMap]
  constructor
  · intro r _
    rw [rowBits, List.pairwise_map]
    refine List.Pairwise.imp_of_mem ?_ List.pairwise_lt_range
    intro a b ha hb hab h
    simp at ha hb
    have := add_mod_inj hw ha hb h.2
    omega
  · refine List.Pairwise.imp_of_mem ?_ List.pairwise_lt_range'
    intro a b ha hb hab e he f hf h
    simp [rowBits] at he hf ha hb
    obtain ⟨_, _, rfl⟩ := he
    obtain ⟨_, _, rfl⟩ := hf
    have := add_mod_inj hn ha hb h.1
    omega

end Sys2Proof.Machine
end

