-- ==== Sys2Proof/Tests/Slice0.lean ====
section
/-! SUPPORT. The model's own tests: the WellFormed smoke, a word of every instruction, one or two steps of every instruction
(expected results from spec/95_test_vectors.md, or by hand from the rule named), and for every obligation with hypotheses a
state that meets them. -/

namespace Sys2Proof.Tests

open Sys2Proof.Machine

/-! ## Helpers -/

/-- A legal configuration with the default memory size and a small display and stack. -/
def tiny : Config := { Config.default with width := 8, height := 4, stackCapacity := 2 }

/-- `tiny` on a 4-column display. -/
def narrow : Config := { tiny with width := 4 }

/-- `tiny` with the whole 16-bit address space. -/
def full : Config := { tiny with memSize := 0x10000 }

/-- Reset under a configuration, with one word placed at 0x200. -/
def machineOn (cfg : Config) (w : Word) : State := (State.ofReset cfg 0).placeWord w

/-- Reset under `tiny`, with one word placed at 0x200. -/
def machine (w : Word) : State := machineOn tiny w

/-- A field of the state a step leaves. -/
def stepped {α : Type} (s : State) (f : State → α) : Option α :=
  match step s with
  | .next t => some (f t)
  | .fault _ => none
  | .refused _ => none

/-- The bytes at `a` to `a + n - 1`. -/
def bytesAt (s : State) (a n : Nat) : List (Option Byte) := (List.range n).map fun k => s.byteAt (a + k)

/-- The pixels that are on. -/
def litPixels (s : State) : List (Nat × Nat) :=
  (List.range s.cfg.height).flatMap fun r => ((List.range s.cfg.width).filter fun c => s.pixel r c).map fun c => (r, c)

/-! ## WellFormed smoke (00_scope.md R7, R8, R9) -/

theorem test_wf_default : Config.default.wellFormed = true := by decide
theorem test_wf_tiny : tiny.wellFormed = true ∧ narrow.wellFormed = true ∧ full.wellFormed = true := by decide
theorem test_wf_memSize_low : ({ tiny with memSize := 0x1FF } : Config).wellFormed = false := by decide
theorem test_wf_memSize_high : ({ tiny with memSize := 0x10001 } : Config).wellFormed = false := by decide
theorem test_wf_memSize_bounds :
    ({ tiny with memSize := 0x200 } : Config).wellFormed = true ∧ full.wellFormed = true := by decide
theorem test_wf_width :
    ({ tiny with width := 0 } : Config).wellFormed = false ∧ ({ tiny with width := 257 } : Config).wellFormed = false := by
  decide
theorem test_wf_height :
    ({ tiny with height := 0 } : Config).wellFormed = false ∧ ({ tiny with height := 257 } : Config).wellFormed = false := by
  decide
theorem test_wf_stack :
    ({ tiny with stackCapacity := 0 } : Config).wellFormed = false ∧
    ({ tiny with stackCapacity := 65536 } : Config).wellFormed = false := by decide

/-! ## Decoding: a word of every instruction, its bits from 30_encoding.md R112 to R120 -/

theorem test_decode_cls : decodeWord 0b0000000011100000 = some .cls := by decide
theorem test_decode_ret : decodeWord 0b0000000011101110 = some .ret := by decide
theorem test_decode_jp : decodeWord 0b0001101010111100 = some (.jp 0xABC) := by decide
theorem test_decode_call : decodeWord 0b0010001100000001 = some (.call 0x301) := by decide
theorem test_decode_seByte : decodeWord 0b0011000101000010 = some (.seByte 1 0x42) := by decide
theorem test_decode_sneByte : decodeWord 0b0100111010000001 = some (.sneByte 14 0x81) := by decide
theorem test_decode_seReg : decodeWord 0b0101000100100000 = some (.seReg 1 2) := by decide
theorem test_decode_ldByte : decodeWord 0b0110111101000010 = some (.ldByte 15 0x42) := by decide
theorem test_decode_addByte : decodeWord 0b0111000100000101 = some (.addByte 1 0x05) := by decide
theorem test_decode_ldReg : decodeWord 0b1000000100100000 = some (.ldReg 1 2) := by decide
theorem test_decode_orReg : decodeWord 0b1000000100100001 = some (.orReg 1 2) := by decide
theorem test_decode_andReg : decodeWord 0b1000000100100010 = some (.andReg 1 2) := by decide
theorem test_decode_xorReg : decodeWord 0b1000000100100011 = some (.xorReg 1 2) := by decide
theorem test_decode_addReg : decodeWord 0b1000000100100100 = some (.addReg 1 2) := by decide
theorem test_decode_subReg : decodeWord 0b1000000100100101 = some (.subReg 1 2) := by decide
theorem test_decode_shr : decodeWord 0b1000000111110110 = some (.shr 1) := by decide
theorem test_decode_subn : decodeWord 0b1000000100100111 = some (.subn 1 2) := by decide
theorem test_decode_shl : decodeWord 0b1000000110101110 = some (.shl 1) := by decide
theorem test_decode_sneReg : decodeWord 0b1001000100100000 = some (.sneReg 1 2) := by decide
theorem test_decode_ldI : decodeWord 0b1010000100100011 = some (.ldI 0x123) := by decide
theorem test_decode_jpV0 : decodeWord 0b1011001100000000 = some (.jpV0 0x300) := by decide
theorem test_decode_rnd : decodeWord 0b1100000100001111 = some (.rnd 1 0x0F) := by decide
theorem test_decode_drw : decodeWord 0b1101000000010010 = some (.drw 0 1 2) := by decide
theorem test_decode_skp : decodeWord 0b1110000110011110 = some (.skp 1) := by decide
theorem test_decode_sknp : decodeWord 0b1110000110100001 = some (.sknp 1) := by decide
theorem test_decode_ldFromDT : decodeWord 0b1111001000000111 = some (.ldFromDT 2) := by decide
theorem test_decode_ldK : decodeWord 0b1111001100001010 = some (.ldK 3) := by decide
theorem test_decode_ldDT : decodeWord 0b1111000100010101 = some (.ldDT 1) := by decide
theorem test_decode_ldST : decodeWord 0b1111000100011000 = some (.ldST 1) := by decide
theorem test_decode_addI : decodeWord 0b1111000100011110 = some (.addI 1) := by decide
theorem test_decode_ldF : decodeWord 0b1111000100101001 = some (.ldF 1) := by decide
theorem test_decode_ldB : decodeWord 0b1111000100110011 = some (.ldB 1) := by decide
theorem test_decode_ldStore : decodeWord 0b1111001001010101 = some (.ldStore 2) := by decide
theorem test_decode_ldLoad : decodeWord 0b1111001001100101 = some (.ldLoad 2) := by decide

/-- The illegal words of 95_test_vectors.md 2.4, and a neighbour of every family's legal words (R116 to R120). -/
theorem test_decode_unknown :
    [0x0000, 0x0123, 0x00E1, 0x00EF, 0x5001, 0x5121, 0x8008, 0x800D, 0x800F, 0x9001, 0x9121, 0xE000, 0xE19F, 0xE1A2,
      0xF000, 0xF006, 0xF008, 0xF166, 0xF0FF, 0xFFFF].all (fun w : Word => decodeWord w == none) = true := by decide

/-- The high byte comes first (R110), and the bytes after the word are left. -/
theorem test_decodeBytes : decodeBytes [0x61, 0x42, 0x99] = .instr (.ldByte 1 0x42) [0x99] := by decide
theorem test_decodeBytes_short : decodeBytes [0x61] = .incomplete := by decide
theorem test_encodeBytes : encodeBytes (.drw 10 11 5) = [0xDA, 0xB5] := by decide
theorem test_decodeTableWord : decodeTableWord 16 0xD125 = some (.drw 1 2 5) ∧ decodeTableWord 16 0x5121 = none := by decide

/-! ## Reset, and a word placed for the first step -/

theorem test_reset_legal : State.reset.pc = 0x200 ∧ State.reset.mode = .running ∧ State.reset.index = 0 := by decide
theorem test_reset_font : bytesAt State.reset 50 5 = [some 0xF0, some 0x90, some 0xF0, some 0x90, some 0x90] := by decide
theorem test_reset_memory_edge :
    State.reset.byteAt 79 = some 0x80 ∧ State.reset.byteAt 80 = some 0 ∧ State.reset.byteAt 0xFFF = some 0 ∧
    State.reset.byteAt 0x1000 = none := by decide

/-- With nothing loaded the first step meets the word 0x0000 and halts (R145). -/
theorem test_reset_step : stepped State.reset State.stepResult = some (some ⟨.unknownInstruction, 0x200, some 0, none, none⟩) := by
  decide

theorem test_withFetchWord : stepped (State.reset.withFetchWord 16 0x6142) (fun t => (t.v 1, t.pc)) = some (0x42, 0x202) := by
  decide

/-! ## Control flow (95_test_vectors.md 2.3) -/

theorem test_jp : stepped (machine 0x1ABC) (fun t => t.pc) = some 0xABC := by decide
theorem test_jp_odd_pc : stepped { (machine 0x60).setPc 0x201 with mem := [(0x201, 0x60), (0x202, 0x55)] }
    (fun t => (t.v 0, t.pc)) = some (0x55, 0x203) := by decide
theorem test_call : stepped (machine 0x2300) (fun t => (t.stack, t.sp, t.pc)) = some ([0x202, 0], 1, 0x300) := by decide
theorem test_call_overflow : stepped { machine 0x2340 with sp := 2 } (fun t => (t.err, t.pc, t.sp, t.stack)) =
    some (some ⟨.outOfBounds, 0x200, some 0x2340, some .stackOverflow, some 2⟩, 0x202, 2, [0, 0]) := by decide
theorem test_ret : stepped { machine 0x00EE with sp := 1, stack := [0x204, 0] } (fun t => (t.pc, t.sp, t.stack)) =
    some (0x204, 0, [0x204, 0]) := by decide
theorem test_ret_underflow : stepped (machine 0x00EE) (fun t => (t.err, t.pc, t.mode)) =
    some (some ⟨.outOfBounds, 0x200, some 0x00EE, some .stackUnderflow, some 0⟩, 0x202, .halted) := by decide
theorem test_jpV0 : stepped ((machine 0xBFFF).setV 0 0xFF) (fun t => t.pc) = some 0x10FE := by decide
theorem test_seByte : stepped ((machine 0x3142).setV 1 0x42) (fun t => t.pc) = some 0x204 ∧
    stepped ((machine 0x3143).setV 1 0x42) (fun t => t.pc) = some 0x202 := by decide
theorem test_sneByte : stepped ((machine 0x4142).setV 1 0x42) (fun t => t.pc) = some 0x202 ∧
    stepped ((machine 0x4100).setV 1 0x42) (fun t => t.pc) = some 0x204 := by decide
theorem test_seReg : stepped (((machine 0x5120).setV 1 7).setV 2 7) (fun t => t.pc) = some 0x204 ∧
    stepped (((machine 0x5120).setV 1 7).setV 2 8) (fun t => t.pc) = some 0x202 := by decide
theorem test_sneReg : stepped (((machine 0x9120).setV 1 7).setV 2 8) (fun t => t.pc) = some 0x204 ∧
    stepped (machine 0x9110) (fun t => t.pc) = some 0x202 := by decide
/-- A skip and a plain step wrap at the top of the address space. -/
theorem test_pc_wraps :
    stepped { (State.ofReset full 0).setPc 0xFFFC with mem := [(0xFFFC, 0x30)] } (fun t => t.pc) = some 0 ∧
    stepped { (State.ofReset full 0).setPc 0xFFFE with mem := [(0xFFFE, 0x60)] } (fun t => t.pc) = some 0 := by decide
theorem test_fetch_edge : stepped ((machine 0).setPc 0xFFF) (fun t => (t.err, t.pc)) =
    some (some ⟨.outOfBounds, 0xFFF, none, some .fetch, some 0x1000⟩, 0xFFF) := by decide
theorem test_unknown : stepped (machine 0x5121) (fun t => (t.err, t.pc)) =
    some (some ⟨.unknownInstruction, 0x200, some 0x5121, none, none⟩, 0x202) := by decide

/-! ## Register loads and the ALU (2.1, 2.2) -/

theorem test_ldByte : stepped (machine 0x6F42) (fun t => t.v 15) = some 0x42 := by decide
theorem test_addByte : stepped ((machine 0x7101).setV 1 0xFF) (fun t => (t.v 1, t.v 15)) = some (0, 0) := by decide
theorem test_ldReg : stepped (((machine 0x8120).setV 1 0x11).setV 2 0x22) (fun t => (t.v 1, t.v 2)) = some (0x22, 0x22) := by
  decide
theorem test_orReg : stepped (((machine 0x8121).setV 1 0x0F).setV 2 0xF0) (fun t => t.v 1) = some 0xFF ∧
    stepped (((machine 0x8111).setV 1 0x33).setV 15 0x77) (fun t => (t.v 1, t.v 15)) = some (0x33, 0x77) := by decide
theorem test_andReg : stepped (((machine 0x8122).setV 1 0x3C).setV 2 0x0F) (fun t => t.v 1) = some 0x0C := by decide
theorem test_xorReg : stepped (((machine 0x8123).setV 1 0xFF).setV 2 0x0F) (fun t => t.v 1) = some 0xF0 := by decide
theorem test_addReg : stepped (((machine 0x8124).setV 1 0xFF).setV 2 0xFF) (fun t => (t.v 1, t.v 15)) = some (0xFE, 1) ∧
    stepped (((machine 0x8124).setV 1 0x7F).setV 2 1) (fun t => (t.v 1, t.v 15)) = some (0x80, 0) := by decide
theorem test_addReg_flag : stepped (((machine 0x8F14).setV 15 0x10).setV 1 0x20) (fun t => t.v 15) = some 0 ∧
    stepped (((machine 0x81F4).setV 1 0xF0).setV 15 0x20) (fun t => (t.v 1, t.v 15)) = some (0x10, 1) := by decide
theorem test_subReg : stepped (((machine 0x8125).setV 1 3).setV 2 5) (fun t => (t.v 1, t.v 15)) = some (0xFE, 0) ∧
    stepped (((machine 0x8125).setV 1 7).setV 2 7) (fun t => (t.v 1, t.v 15)) = some (0, 1) := by decide
theorem test_subReg_flag : stepped (((machine 0x8F05).setV 15 5).setV 0 3) (fun t => t.v 15) = some 1 := by decide
theorem test_subn : stepped (((machine 0x8127).setV 1 3).setV 2 5) (fun t => (t.v 1, t.v 15)) = some (2, 1) ∧
    stepped (((machine 0x8127).setV 1 1).setV 2 0) (fun t => (t.v 1, t.v 15)) = some (0xFF, 0) := by decide
theorem test_shr : stepped (((machine 0x8126).setV 1 0xFF).setV 2 0x55) (fun t => (t.v 1, t.v 15)) = some (0x7F, 1) ∧
    stepped ((machine 0x8F06).setV 15 2) (fun t => t.v 15) = some 0 := by decide
theorem test_shl : stepped (((machine 0x812E).setV 1 0x81).setV 2 0x55) (fun t => (t.v 1, t.v 15)) = some (2, 1) ∧
    stepped ((machine 0x8F0E).setV 15 0x81) (fun t => t.v 15) = some 1 := by decide
/-- `C100` gives 0 for any draw, and the draw is taken (R210). -/
theorem test_rnd : stepped ((machine 0xC100).setV 1 7) (fun t => (t.draws, t.pc)) = some (1, 0x202) := by decide

/-! ## Index register and memory (2.5) -/

theorem test_ldI : stepped (machine 0xA123) (fun t => t.index) = some 0x123 := by decide
theorem test_addI : stepped (((machine 0xF11E).setV 1 2).setIndex 0xFFFF) (fun t => (t.index, t.v 15)) = some (1, 0) ∧
    stepped (((machine 0xF11E).setV 1 1).setIndex 0xFFF) (fun t => (t.index, t.v 15)) = some (0x1000, 0) := by decide
theorem test_ldF : stepped ((machine 0xF129).setV 1 0x0A) (fun t => t.index) = some 0x32 ∧
    stepped ((machine 0xF129).setV 1 0xFF) (fun t => t.index) = some 0x4FB := by decide
theorem test_ldB : stepped (((machine 0xF133).setV 1 156).setIndex 0x300) (fun t => (bytesAt t 0x2FF 5, t.index)) =
    some ([some 0, some 1, some 5, some 6, some 0], 0x300) := by decide
theorem test_ldB_edge : stepped (((machine 0xF133).setV 1 156).setIndex 0xFFE) (fun t => (bytesAt t 0xFFE 2, t.err, t.pc)) =
    some ([some 1, some 5], some ⟨.outOfBounds, 0x200, some 0xF133, some .memWrite, some 0x1000⟩, 0x202) := by decide
theorem test_ldStore :
    stepped (((((machine 0xF255).setV 0 1).setV 1 5).setV 2 6).setIndex 0x310) (fun t => (bytesAt t 0x310 4, t.index)) =
    some ([some 1, some 5, some 6, some 0], 0x310) := by decide
/-- The font may be overwritten (20_memory.md R83). -/
theorem test_ldStore_font : stepped ((machine 0xF055).setV 0 0xAA) (fun t => bytesAt t 0 2) = some [some 0xAA, some 0x90] := by
  decide
theorem test_ldLoad : stepped { (machine 0xF265).setIndex 0x300 with
      mem := [(0x200, 0xF2), (0x201, 0x65), (0x300, 1), (0x301, 5), (0x302, 6)] }
    (fun t => (t.v 0, t.v 1, t.v 2, t.index)) = some (1, 5, 6, 0x300) := by decide
theorem test_ldLoad_edge : stepped { ((machine 0xF265).setIndex 0xFFE).setV 2 0x77 with
      mem := [(0x200, 0xF2), (0x201, 0x65), (0xFFE, 9), (0xFFF, 8)] }
    (fun t => (t.v 0, t.v 1, t.v 2, t.err)) =
    some (9, 8, 0x77, some ⟨.outOfBounds, 0x200, some 0xF265, some .memRead, some 0x1000⟩) := by decide

/-! ## Display (2.6, on 8 columns and 4 rows) -/

/-- A machine with a `DRW` at 0x200, its sprite at 0x300. -/
def drawing (cfg : Config) (w : Word) (sprite : Nat → Byte) : State :=
  ((((machineOn cfg w).setIndex 0x300).poke 0x300 (sprite 0)).poke 0x301 (sprite 1))

theorem test_cls : stepped { machine 0x00E0 with disp := List.replicate 32 true } (fun t => (litPixels t, t.disp.length)) =
    some ([], 32) := by decide
/-- Column 6 + 2 wraps to 0, row 3 + 1 wraps to 0 (R241); one bit of a sprite meets a pixel that is on. -/
theorem test_drw : stepped (((drawing tiny 0xD012 fun _ => 0xE0).setV 0 62).setV 1 31) (fun t => (litPixels t, t.v 15)) =
      some ([(0, 0), (0, 6), (0, 7), (3, 0), (3, 6), (3, 7)], 0) ∧
    stepped { drawing tiny 0xD011 (fun _ => 0x40) with disp := [true, true] ++ List.replicate 30 false }
      (fun t => (litPixels t, t.v 15)) = some ([(0, 0)], 1) := by decide
/-- Bits 7 and 3 land on column 0 of a 4-column display, on and then off (D22); the x coordinate is VF's old value (D23); row 0
stays drawn where row 1 lies outside memory. -/
theorem test_drw_corners : stepped (drawing narrow 0xD011 fun _ => 0x88) (fun t => (litPixels t, t.v 15)) = some ([], 1) ∧
    stepped ((drawing tiny 0xDF01 fun _ => 0x80).setV 15 3) (fun t => (litPixels t, t.v 15)) = some ([(0, 3)], 0) ∧
    stepped { (machine 0xD012).setIndex 0xFFF with mem := [(0x200, 0xD0), (0x201, 0x12), (0xFFF, 0x80)] }
      (fun t => (litPixels t, t.v 15, t.err)) =
      some ([(0, 0)], 0, some ⟨.outOfBounds, 0x200, some 0xD012, some .memRead, some 0x1000⟩) := by decide

/-! ## Timers and keys (2.7, 2.8) -/

theorem test_ldFromDT : stepped { machine 0xF207 with dt := 9 } (fun t => (t.v 2, t.dt)) = some (9, 9) := by decide
theorem test_ldDT : stepped ((machine 0xF115).setV 1 2) (fun t => (t.dt, t.st)) = some (2, 0) := by decide
theorem test_ldST : stepped ((machine 0xF118).setV 1 2) (fun t => (t.dt, t.st)) = some (0, 2) := by decide
theorem test_tick : ({ machine 0 with dt := 1, st := 0 }).tickTimers.dt = 0 ∧
    ({ machine 0 with dt := 0, st := 5 }).tickTimers.st = 4 ∧ ({ machine 0 with dt := 0, st := 5 }).tickTimers.dt = 0 := by
  decide
theorem test_skp : stepped ((((machine 0xE19E).setV 1 5).keyDown 5)) (fun t => t.pc) = some 0x204 ∧
    stepped ((machine 0xE19E).setV 1 5) (fun t => t.pc) = some 0x202 := by decide
theorem test_sknp : stepped ((((machine 0xE1A1).setV 1 5).keyDown 5)) (fun t => t.pc) = some 0x202 ∧
    stepped ((machine 0xE1A1).setV 1 0x10) (fun t => (t.err, t.pc)) =
      some (some ⟨.outOfBounds, 0x200, some 0xE1A1, some .key, some 0x10⟩, 0x202) := by decide
theorem test_key_events : ((machine 0).keyUp 3).latch = some 3 ∧ (machine 0).keyDown 16 = machine 0 ∧
    (machine 0).keyDown (-1) = machine 0 ∧ (machine 0).keyUp 99 = machine 0 := by decide
/-- A release before the wait does not count (D12). -/
theorem test_ldK_enter : stepped ((machine 0xF30A).keyUp 3) (fun t => (t.mode, t.latch, t.pc)) =
    some (.awaitingKey, none, 0x200) := by decide
theorem test_ldK_complete : stepped (((((machine 0xF30A).setMode .awaitingKey).keyUp 9).keyUp 4))
    (fun t => (t.v 3, t.latch, t.mode, t.pc)) = some (4, none, .running, 0x202) := by decide

/-! ## Host commands -/

/-- L1-2 of 95_test_vectors.md, the fit and the overflow. -/
theorem test_load : bytesAt (State.load (State.ofReset tiny 0) [0x12, 0x34] 0xFFE) 0xFFE 2 = [some 0x12, some 0x34] := by decide
theorem test_load_too_large : (State.load (State.ofReset tiny 0) [0x12, 0x34] 0xFFF).err =
    some ⟨.loadTooLarge, 0xFFF, none, none, some 2⟩ := by decide

/-! ## A state that meets the hypotheses of each obligation that has some -/

/-- The state a step leaves; the state itself where it has no next state. -/
def after (s : State) : State :=
  match step s with
  | .next t => t
  | .fault _ => s
  | .refused _ => s

/-- The session a command leaves; the session itself where it has no next one. -/
def afterCommand (c : Command) (z : Session) : Session :=
  match z.command c with
  | .next z' => z'
  | .fault _ => z
  | .refused _ => z

/-- A machine that waits for a key at an `F30A`. -/
def waiting : State := (machine 0xF30A).setMode .awaitingKey

/-- A machine halted on the word 0x0000. -/
def halted : State := after (machine 0)

/-- A session in the boot window. -/
def booting (s : State) : Session := ⟨.bootWindow, s⟩

/-- A session past its first step. -/
def running (s : State) : Session := ⟨.stepping, s⟩

theorem test_meets_LegalWord :
    (decodeWord 0x6142 = some (.ldByte 1 0x42) ∧ encode (.ldByte 1 0x42) = 0x6142) ∧
    decodeWord 0x8126 = some (.shr 1) ∧ encode (.shr 1) = 0x8126 &&& 0xFF0F := by decide

theorem test_meets_StepRunsTheDecodedInstruction :
    ((machine 0x6142).byteAt 0x200 = some 0x61 ∧ (machine 0x6142).byteAt 0x201 = some 0x42 ∧
      decodeWord (bigEndian 0x61 0x42) = some (.ldByte 1 0x42) ∧ (machine 0x6142).mode = .running) ∧
    waiting.byteAt 0x200 = some 0xF3 ∧ waiting.byteAt 0x201 = some 0x0A ∧
      decodeWord (bigEndian 0xF3 0x0A) = some (.ldK 3) ∧ waiting.mode = .awaitingKey ∧ isKeyWait (.ldK 3) = true := by decide

theorem test_meets_HaltedStep : halted.mode = .halted := by decide

theorem test_meets_FetchOutsideMemoryHalts :
    (((machine 0).setPc 0xFFF).mode ≠ .halted ∧ tiny.memSize ≤ (0xFFF : Addr).toNat + 1) ∧
    ((waiting.setPc 0x1000).mode ≠ .halted ∧ tiny.memSize ≤ (0x1000 : Addr).toNat + 1) := by decide

theorem test_meets_UnknownWordHalts :
    (machine 0x5121).mode = .running ∧ (machine 0x5121).byteAt 0x200 = some 0x51 ∧
    (machine 0x5121).byteAt 0x201 = some 0x21 ∧ decodeWord (bigEndian 0x51 0x21) = none := by decide

/-- The one stuck state: waiting over a word that is not FX0A, here an `LD` and an unknown word. -/
theorem test_meets_StepIsStuck :
    step ((machine 0x6142).setMode .awaitingKey) = .fault .keyWaitBroken ∧
    step ((machine 0x5121).setMode .awaitingKey) = .fault .keyWaitBroken := ⟨rfl, rfl⟩

theorem test_meets_EveryStepKeepsTheStateLegal :
    (machine 0x6142).legal = true ∧ waiting.legal = true ∧ halted.legal = true ∧
    step (machine 0x6142) = .next (after (machine 0x6142)) ∧ step waiting = .next (after waiting) :=
  ⟨by decide, by decide, by decide, rfl, rfl⟩

theorem test_meets_SpinningStep : (machine 0x1200).spinning = true := by decide

theorem test_meets_EveryCommandKeepsTheSessionLegal :
    (booting (machine 0x6142)).legal = true ∧ (running waiting).legal = true ∧
    (running waiting).command (.keyUp 3) = .next (afterCommand (.keyUp 3) (running waiting)) :=
  ⟨by decide, by decide, rfl⟩

theorem test_meets_SessionRefuses :
    (Session.mk .beforeReset (machine 0)).legal = true ∧
    Session.command .step ⟨.beforeReset, machine 0⟩ = .refused .commandBeforeReset ∧
    (running waiting).legal = true ∧ (running waiting).command (.load [1] 0) = .refused .loadOutsideBootWindow ∧
    (booting (machine 0)).legal = true ∧
    (booting (machine 0)).command (.load [1] 0) = .next (afterCommand (.load [1] 0) (booting (machine 0))) :=
  ⟨by decide, rfl, by decide, rfl, by decide, rfl⟩

/-- The two clauses meet between 0xFFE and 0xFFF for two bytes; an offset that has 16 bits, and one that has not. -/
theorem test_meets_LoadCopiesOrHalts :
    0xFFE + [0x12, 0x34].length ≤ (machine 0).cfg.memSize ∧ (machine 0).cfg.memSize < 0xFFF + [0x12, 0x34].length ∧
    0xFFF < 0x10000 ∧ (machine 0).cfg.memSize < 0x10000 + [0x12].length := by decide

theorem test_meets_KeyEvents : (0 ≤ (0 : Int) ∧ (0 : Int) ≤ 15) ∧ (0 ≤ (15 : Int) ∧ (15 : Int) ≤ 15) ∧
    ¬ (0 ≤ (-1 : Int) ∧ (-1 : Int) ≤ 15) ∧ ¬ (0 ≤ (16 : Int) ∧ (16 : Int) ≤ 15) := by decide

theorem test_meets_Snapshot : (machine 0).dispOk = true ∧ 3 < tiny.height ∧ 7 < tiny.width := by decide

theorem test_meets_KeyWaitHolds :
    (booting (machine 0xF30A)).phase ≠ .beforeReset ∧ (machine 0xF30A).mode = .running ∧
    (machine 0xF30A).instrAtPc = some (.ldK 3) ∧
    (∀ c ∈ [Command.step, .keyDown 4, .tickTimers, .keyUp 16, .step], Claims.quiet c = true) := by decide

theorem test_meets_OnlyStoresChangeMemory :
    let s := ((machine 0xF133).setV 1 156).setIndex 0x300
    step s = .next (after s) ∧ (after s).byteAt 0x300 ≠ s.byteAt 0x300 := ⟨rfl, by decide⟩

theorem test_meets_OnlyCallAndRet :
    let s := machine 0x2300
    let u := { machine 0x00EE with sp := 1 }
    step s = .next (after s) ∧ (after s).stack ≠ s.stack ∧ (after s).sp ≠ s.sp ∧
    step u = .next (after u) ∧ (after u).sp ≠ u.sp := ⟨rfl, by decide, by decide, rfl, by decide⟩

theorem test_meets_OnlyTicksTimerWrites :
    let z := running ((machine 0xF115).setV 1 2)
    let y := running { machine 0xF118 with dt := 3, st := 4 }
    z.command .step = .next (afterCommand .step z) ∧ (afterCommand .step z).core.dt ≠ z.core.dt ∧
    y.command .step = .next (afterCommand .step y) ∧ (afterCommand .step y).core.st ≠ y.core.st ∧
    y.command .tickTimers = .next (afterCommand .tickTimers y) ∧ (afterCommand .tickTimers y).core.dt ≠ y.core.dt ∧
    y.command .reset = .next (afterCommand .reset y) ∧ (afterCommand .reset y).core.st ≠ y.core.st :=
  ⟨rfl, by decide, rfl, by decide, rfl, by decide, rfl, by decide⟩

theorem test_meets_StepsKeepKeys :
    let s := waiting.keyUp 4
    step s = .next (after s) ∧ (after s).latch ≠ s.latch := ⟨rfl, by decide⟩

theorem test_meets_OnlyClearAndDraw :
    let s := drawing tiny 0xD011 fun _ => 0xFF
    let u := { machine 0x00E0 with disp := List.replicate 32 true }
    step s = .next (after s) ∧ (after s).disp ≠ s.disp ∧ step u = .next (after u) ∧ (after u).disp ≠ u.disp :=
  ⟨rfl, by decide, rfl, by decide⟩

theorem test_meets_OnlyListedInstructionsWrite :
    let s := (machine 0x8125).setV 1 3
    step s = .next (after s) ∧ (after s).v 15 ≠ s.v 15 := ⟨rfl, by decide⟩

theorem test_meets_OnlyIndexInstructions :
    let s := (machine 0xF11E).setV 1 3
    let u := machine 0xA123
    step s = .next (after s) ∧ (after s).index ≠ s.index ∧ step u = .next (after u) ∧ (after u).index ≠ u.index :=
  ⟨rfl, by decide, rfl, by decide⟩

/-- A failure of each kind R151 lists. -/
theorem test_meets_StepRaises :
    let s := (machine 0).setPc 0xFFF
    let u := machine 0
    let v := (machine 0xF165).setIndex 0xFFF
    (s.mode ≠ .halted ∧ step s = .next (after s) ∧ (after s).mode = .halted) ∧
    (u.mode ≠ .halted ∧ step u = .next (after u) ∧ (after u).mode = .halted) ∧
    (v.mode ≠ .halted ∧ step v = .next (after v) ∧ (after v).mode = .halted) ∧
    Claims.mayRaise (.ldK 3) = false ∧ waiting.mode ≠ .halted :=
  ⟨⟨by decide, rfl, by decide⟩, ⟨by decide, rfl, by decide⟩, ⟨by decide, rfl, by decide⟩, rfl, by decide⟩

theorem test_meets_ModeTransitions :
    let z := booting (machine 0xF30A)
    let y := running (waiting.keyUp 4)
    let x := booting (machine 0)
    (z.legal = true ∧ z.phase ≠ .beforeReset ∧ z.command .step = .next (afterCommand .step z) ∧
      (afterCommand .step z).core.mode ≠ z.core.mode) ∧
    (y.legal = true ∧ y.phase ≠ .beforeReset ∧ y.command .step = .next (afterCommand .step y) ∧
      (afterCommand .step y).core.mode ≠ y.core.mode) ∧
    (x.legal = true ∧ x.phase ≠ .beforeReset ∧ x.command .reset = .next (afterCommand .reset x) ∧
      x.command .step = .next (afterCommand .step x) ∧ (afterCommand .step x).core.mode ≠ x.core.mode ∧
      x.command (.load [1, 2] 0xFFF) = .next (afterCommand (.load [1, 2] 0xFFF) x) ∧
      (afterCommand (.load [1, 2] 0xFFF) x).core.mode ≠ x.core.mode) :=
  ⟨⟨by decide, by decide, rfl, by decide⟩, ⟨by decide, by decide, rfl, by decide⟩,
    ⟨by decide, by decide, rfl, rfl, by decide, rfl, by decide⟩⟩

theorem test_meets_NoCommandChangesTheConfiguration :
    (running (machine 0x6142)).command .step = .next (afterCommand .step (running (machine 0x6142))) := rfl

/-- A step that writes `ST`, and a draw that collides. -/
theorem test_meets_NoninterferenceOfTimerAndDisplay :
    let s := (machine 0xF118).setV 1 2
    let u := drawing tiny 0xD011 fun _ => 0xFF
    step s = .next (after s) ∧ (after s).st ≠ s.st ∧ step u = .next (after u) ∧
    stepped { u with disp := List.replicate 32 true } (fun t => t.v 15) = some 1 := ⟨rfl, by decide, rfl, by decide⟩

/-- A jump to itself, and a jump outside memory. -/
theorem test_meets_Jumps :
    ((machine 0x1200).mode = .running ∧ (machine 0x1200).instrAtPc = some (.jp 0x200) ∧
      (0x200 : BitVec 12).toNat = (machine 0x1200).pc.toNat) ∧
    (let s := after ((machine 0xBFFF).setV 0 0xFF); s.mode = .running ∧ s.cfg.memSize ≤ s.pc.toNat) ∧
    ({ machineOn { tiny with memSize := 0x210 } 0x1FFF with pc := 0x200 } : State).cfg.memSize ≤ 0xFFF ∧
    (machine 0xF115).v 1 = 0 := by decide

theorem test_meets_SixteenBitAccesses : 0xFFE + 1 < (machine 0).cfg.memSize := by decide

theorem test_meets_Ret :
    let s := { machine 0x00EE with sp := 2, stack := [0x204, 0x306] }
    s.sp ≠ 0 ∧ s.stack[s.sp - 1]? = some 0x306 ∧ (machine 0x00EE).sp = 0 := by decide

theorem test_meets_Call :
    let s := { machine 0x2300 with sp := 1 }
    let u := { machine 0x2300 with sp := 2 }
    (s.stackOk = true ∧ s.sp < s.cfg.stackCapacity) ∧ u.stackOk = true ∧ u.sp = u.cfg.stackCapacity := by decide

theorem test_meets_NestedCalls :
    (machine 0).stackOk = true ∧ [(0x300 : BitVec 12), 0x304] ≠ [] ∧
    (machine 0).sp + [(0x300 : BitVec 12), 0x304].length ≤ (machine 0).cfg.stackCapacity := by decide

/-- Both outcomes of a skip's comparison, at the ends of the byte range. -/
theorem test_meets_Skips :
    ((machine 0).setV 1 0xFF).v 1 = 0xFF ∧ ((machine 0).setV 1 0xFF).v 1 ≠ 0 ∧
    ((machine 0).setV 1 0xFF).v 1 ≠ (machine 0).v 2 ∧ (machine 0).v 1 = (machine 0).v 2 := by decide

/-- A sum of 255 and one of 256; a difference of 0 and one of -1; `X` other than 15, and 15. -/
theorem test_meets_Flags : (1 : RegIdx) ≠ vf ∧ ¬ 255 < (0xFE : Byte).toNat + (0x01 : Byte).toNat ∧
    255 < (0xFF : Byte).toNat + (0x01 : Byte).toNat ∧ (7 : Byte).toNat ≤ (7 : Byte).toNat ∧
    ¬ (8 : Byte).toNat ≤ (7 : Byte).toNat ∧ (15 : RegIdx) = vf := by decide

/-- LD B, LD [I] and LD Vx, [I] end at the last byte of memory, and one past it. -/
theorem test_meets_BlockTransfers :
    let s := (machine 0).setIndex 0xFFD
    let u := (machine 0).setIndex 0xFFE
    s.base + 2 < s.cfg.memSize ∧ s.base + (2 : RegIdx).toNat < s.cfg.memSize ∧ u.base + 1 < u.cfg.memSize ∧
    u.cfg.memSize ≤ u.base + 2 ∧ u.cfg.memSize ≤ u.base + (2 : RegIdx).toNat := by decide

/-- A sprite that collides with nothing, and one that collides, both on a display where no bits share a pixel; then bits that
share a pixel, on 4 columns (`W < 8`) with a collision and without, and with 5 rows on 4 (`H < N`). -/
theorem test_meets_Draw :
    let s := drawing tiny 0xD014 fun _ => 0x80
    let u := { s with disp := [true] ++ List.replicate 31 false }
    let a := drawing narrow 0xD011 fun _ => 0x88
    (8 ≤ s.cfg.width ∧ (4 : BitVec 4).toNat ≤ s.cfg.height ∧
      ∀ r, r < 4 → ∀ c, c < 8 → ¬ (Claims.spriteBit s r c = true ∧
        s.pixel (Claims.spriteRow s 1 r) (Claims.spriteCol s 0 c) = true)) ∧
    (Claims.spriteBit u 0 0 = true ∧ u.pixel (Claims.spriteRow u 1 0) (Claims.spriteCol u 0 0) = true) ∧
    (0 : RegIdx) ≠ vf ∧ (1 : RegIdx) ≠ vf ∧
    ((Claims.drawnBits a 0 1 1)[4]? = some ⟨0, 0, true⟩ ∧
      Claims.pixelAfter a ((Claims.drawnBits a 0 1 1).take 4) 0 0 = true) ∧
    (∀ k, k < 8 → ((Claims.drawnBits (drawing narrow 0xD011 fun _ => 0) 0 1 1)[k]?.map fun e => e.bit) = some false) ∧
    Claims.pixelAfter s (Claims.drawnBits s 0 1 5) 0 0 = true := by decide

theorem test_meets_Draw_collides : Claims.Collides (drawing narrow 0xD011 fun _ => 0x88)
    (Claims.drawnBits (drawing narrow 0xD011 fun _ => 0x88) 0 1 1) := ⟨4, ⟨0, 0, true⟩, by decide, by decide, by decide⟩

theorem test_meets_HasDisplay :
    (Claims.HasDisplay (drawing tiny 0xD014 fun _ => 0x80) ∧ Claims.SpriteInMemory (drawing tiny 0xD014 fun _ => 0x80) 4) ∧
    Claims.HasDisplay (drawing narrow 0xD011 fun _ => 0x88) ∧
    Claims.SpriteInMemory (drawing narrow 0xD011 fun _ => 0x88) 1 := by
  unfold Claims.HasDisplay Claims.SpriteInMemory; decide

/-- No rows; rows that end at the last byte of memory; rows that end one past it, the ones before drawn. -/
theorem test_meets_DrawCompletesOrHalts :
    let s := (machine 0).setIndex 0xFFE
    (2 : BitVec 4) ≠ 0 ∧ s.base + (2 : BitVec 4).toNat ≤ s.cfg.memSize ∧ s.cfg.memSize < s.base + (3 : BitVec 4).toNat ∧
    (s.dispOk = true ∧ 8 ≤ s.cfg.width ∧ (3 : BitVec 4).toNat ≤ s.cfg.height ∧ s.base + 1 < s.cfg.memSize) ∧
    (Claims.drawnBits s 0 1 3).length = 16 := by decide

theorem test_meets_KeySkips :
    (((machine 0).setV 1 15).v 1).toNat = (15 : Fin 16).val ∧ 15 < (((machine 0).setV 1 16).v 1).toNat := by decide

theorem test_meets_KeyWait :
    (machine 0xF30A).mode = .running ∧ (waiting.mode = .awaitingKey ∧ waiting.latch = none) ∧
    (waiting.keyUp 4).mode = .awaitingKey ∧ (waiting.keyUp 4).latch = some 4 := by decide

end Sys2Proof.Tests
end

section
/-! PROOFS. The configuration under every command (spec/00_scope.md R7, 70_reset_and_hazards.md R341). -/

namespace Sys2Proof.Machine

/-! ## The configuration through the host's state updates -/

@[simp] theorem State.resetCommand_cfg (s : State) : s.resetCommand.cfg = s.cfg := rfl

@[simp] theorem State.tickTimers_cfg (s : State) : s.tickTimers.cfg = s.cfg := rfl

@[simp] theorem State.load_cfg (s : State) (bytes : List Byte) (o : Nat) : (s.load bytes o).cfg = s.cfg := by
  unfold State.load
  split
  · exact s.pokeBytes_cfg o bytes
  · rfl

@[simp] theorem State.setKey_cfg (s : State) (k : Int) (down : Bool) : (s.setKey k down).cfg = s.cfg := by
  unfold State.setKey
  split <;> rfl

@[simp] theorem State.keyDown_cfg (s : State) (k : Int) : (s.keyDown k).cfg = s.cfg := s.setKey_cfg k true

@[simp] theorem State.keyUp_cfg (s : State) (k : Int) : (s.keyUp k).cfg = s.cfg := by
  unfold State.keyUp
  split
  · exact s.setKey_cfg k false
  · rfl

/-! ## The configuration through a step -/

/-- No shape of a meaning lists `cfg` among the fields it may change. -/
theorem ExecShape.cfg_eq {i : Instr} {s t : State} (h : ExecShape i s t) : t.cfg = s.cfg := by
  cases i
  case ldK x =>
    rcases h with ⟨h, -⟩ | rfl
    · exact (congrArg State.cfg h).trans rfl
    · rfl
  case ldByte | addByte | ldReg | orReg | andReg | xorReg | ldFromDT | addReg | subReg | shr | subn | shl | rnd | drw |
      ldLoad =>
    exact (congrArg State.cfg h.1).trans rfl
  all_goals exact (congrArg State.cfg h).trans rfl

theorem step_cfg {s t : State} (h : step s = .next t) : t.cfg = s.cfg := by
  rcases step_shape s t h with ⟨-, rfl⟩ | ⟨-, -, ix, rfl⟩ | ⟨w, -, -, -, rfl⟩ | ⟨i, -, hi, -⟩
  · rfl
  · rfl
  · rfl
  · exact hi.cfg_eq

/-! ## What a command of a session can do -/

/-- The session `z'` that a command which is not refused leaves (spec/40_execute_cycle.md R140, 70_reset_and_hazards.md R342). -/
def CommandShape (c : Command) (z z' : Session) : Prop :=
  match c with
  | .reset => z' = ⟨.bootWindow, z.core.resetCommand⟩
  | .load bytes o => z.phase = .bootWindow ∧ z' = ⟨.bootWindow, z.core.load bytes o⟩
  | .step => ∃ t, step z.core = .next t ∧ z' = ⟨.stepping, t⟩
  | .tickTimers => z' = ⟨z.phase, z.core.tickTimers⟩
  | .keyDown k => z' = ⟨z.phase, z.core.keyDown k⟩
  | .keyUp k => z' = ⟨z.phase, z.core.keyUp k⟩
  | .snapshot => z' = z

theorem Session.afterStep_eq_next {r : Result} {z' : Session} (h : Session.afterStep r = .next z') :
    ∃ t, r = .next t ∧ z' = ⟨.stepping, t⟩ := by
  cases r with
  | next t => cases h; exact ⟨t, rfl, rfl⟩
  | fault f => cases h
  | refused q => cases h

theorem Session.issue_shape {c : Command} {z z' : Session} (h : z.issue c = .next z') : CommandShape c z z' := by
  cases c with
  | load bytes o =>
    rcases hp : z.phase with _ | _ | _ <;> simp only [Session.issue, hp] at h <;> cases h
    exact ⟨hp, rfl⟩
  | step => exact Session.afterStep_eq_next h
  | reset => cases h; rfl
  | tickTimers => cases h; rfl
  | keyDown k => cases h; rfl
  | keyUp k => cases h; rfl
  | snapshot => cases h; rfl

/-- Everything a command that answers a next session can do; before the first reset it is that reset (10_state.md R57). -/
theorem Session.command_shape {c : Command} {z z' : Session} (h : z.command c = .next z') :
    (z.phase = .beforeReset → c = .reset) ∧ CommandShape c z z' := by
  rcases hp : z.phase with _ | _ | _ <;> simp only [Session.command, hp] at h
  · split at h
    · next hc => exact ⟨fun _ => hc, Session.issue_shape h⟩
    · cases h
  · exact ⟨nofun, Session.issue_shape h⟩
  · exact ⟨nofun, Session.issue_shape h⟩

theorem CommandShape.cfg_eq {c : Command} {z z' : Session} (h : CommandShape c z z') : z'.core.cfg = z.core.cfg := by
  cases c with
  | reset => subst h; exact z.core.resetCommand_cfg
  | load bytes o => obtain ⟨-, rfl⟩ := h; exact z.core.load_cfg bytes o
  | step => obtain ⟨t, ht, rfl⟩ := h; exact step_cfg ht
  | tickTimers => subst h; exact z.core.tickTimers_cfg
  | keyDown k => subst h; exact z.core.keyDown_cfg k
  | keyUp k => subst h; exact z.core.keyUp_cfg k
  | snapshot => subst h; rfl

end Sys2Proof.Machine

namespace Sys2Proof.Proofs

open Sys2Proof.Machine

/-- Settles O32: no command's shape touches `cfg`, the step's by the shape of the instruction it runs. -/
theorem noCommandChangesTheConfiguration : Obligations.NoCommandChangesTheConfiguration := by
  intro c z z' h
  exact (Session.command_shape h).2.cfg_eq

end Sys2Proof.Proofs
end

section
/-! PROOFS. DXYN as the ordered drawing of `Claims.drawnBits` (spec/44_display.md R241, R242): the statement's own list of
bits is the rasterizer's `spriteBits`, so the laws of `drawBits` speak of `pixelAfter` and `Collides`. -/

namespace Sys2Proof.Machine

open Sys2Proof.Claims

/-! ## The sprite bits of the statement and of the rasterizer -/

/-- A placed bit in the statement's own type. -/
def PlacedBit.drawn (e : PlacedBit) : DrawnBit := ⟨e.row, e.col, e.bit⟩

theorem spriteInMemory_iff (s : State) (n : BitVec 4) : SpriteInMemory s n ↔ n.toNat ≤ s.cfg.memSize - s.base := by
  have h0 : n = 0 ↔ n.toNat = 0 := by simp [← BitVec.toNat_inj]
  rw [SpriteInMemory, h0]
  omega

theorem spriteBit_eq_read (s : State) (r c : Nat) (h : s.base + r < s.cfg.memSize) :
    spriteBit s r c = (Memory.read s.cfg.font s.mem (s.index.toNat + r)).getLsbD (7 - c) := by
  rw [spriteBit, s.byteAt_eq, if_pos h]
  rfl

/-- The rows with a byte in memory are the first ones. -/
theorem filter_range_in_memory (n a m : Nat) :
    ((List.range n).filter fun r => a + r < m) = List.range (min n (m - a)) := by
  induction n with
  | zero => simp
  | succ n ih =>
    rw [List.range_succ, List.filter_append, ih]
    by_cases h : a + n < m
    · rw [show min (n + 1) (m - a) = n + 1 by omega, show min n (m - a) = n by omega, List.range_succ]
      simp [h]
    · rw [show min (n + 1) (m - a) = min n (m - a) by omega]
      simp [h]

/-- The statement's bits are the rasterizer's bits of the rows that have a byte in memory. -/
theorem drawnBits_eq (s : State) (x y : RegIdx) (n : BitVec 4) :
    drawnBits s x y n =
      (spriteBits s (s.v x).toNat (s.v y).toNat 0 (min n.toNat (s.cfg.memSize - s.base))).map PlacedBit.drawn := by
  rw [drawnBits, filter_range_in_memory, spriteBits, List.map_flatMap, ← List.range_eq_range']
  refine List.flatMap_congr fun r hr => ?_
  have hr : s.base + r < s.cfg.memSize := by
    have := List.mem_range.1 hr
    omega
  simp only [rowBits, List.map_map, spriteBit_eq_read s r _ hr]
  rfl

/-- The bits of a sprite in memory, in the statement's words. -/
theorem mem_spriteBits_iff {s : State} {n : BitVec 4} (h : SpriteInMemory s n) (x y : RegIdx) (e : PlacedBit) :
    e ∈ spriteBits s (s.v x).toNat (s.v y).toNat 0 n.toNat ↔
      ∃ r c, r < n.toNat ∧ c < 8 ∧ e = ⟨spriteRow s y r, spriteCol s x c, spriteBit s r c⟩ := by
  rw [spriteInMemory_iff] at h
  rw [mem_spriteBits]
  refine exists_congr fun r => exists_congr fun c => and_congr_right fun hr => and_congr_right fun _ => ?_
  rw [spriteBit_eq_read s r c (by omega)]
  rfl

/-- Every sprite bit lands inside the bitmap, whatever the coordinates: they are reduced to the display (R241). -/
theorem spriteBits_inside {s : State} (h : HasDisplay s) (cx cy n : Nat) :
    ∀ e ∈ spriteBits s cx cy 0 n, e.col < s.cfg.width ∧ e.row * s.cfg.width + e.col < s.disp.length := by
  obtain ⟨hd, hw, hh⟩ := h
  have hlen : s.disp.length = s.cfg.height * s.cfg.width := by simpa [State.dispOk] using hd
  intro e he
  obtain ⟨r, c, -, -, rfl⟩ := (mem_spriteBits s cx cy n e).1 he
  rw [hlen]
  exact ⟨Nat.mod_lt _ hw, pixelIndex_lt (Nat.mod_lt _ hh) (Nat.mod_lt _ hw)⟩

/-! ## Ordered drawing: `pixelAfter` and `Collides` -/

section
variable {s : State} {bits : List PlacedBit}
  (hin : ∀ e ∈ bits, e.col < s.cfg.width ∧ e.row * s.cfg.width + e.col < s.disp.length)
include hin

theorem pixelAfter_eq_drawBits (col : Bool) (p q : Nat) (hq : q < s.cfg.width) :
    pixelAfter s (bits.map PlacedBit.drawn) p q =
      Bitmap.pixel s.cfg.width (drawBits s.cfg.width bits (s.disp, col)).1 p q := by
  rw [drawBits_pixel _ _ _ hin _ _ hq, pixelAfter, List.foldl_map]
  rfl

theorem collides_iff_drawBits :
    Collides s (bits.map PlacedBit.drawn) ↔ (drawBits s.cfg.width bits (s.disp, false)).2 = true := by
  have hpix : ∀ k e, bits[k]? = some e → pixelAfter s ((bits.map PlacedBit.drawn).take k) e.row e.col =
      Bitmap.pixel s.cfg.width (drawBits s.cfg.width (bits.take k) (s.disp, false)).1 e.row e.col := by
    intro k e he
    rw [← List.map_take]
    exact pixelAfter_eq_drawBits (fun f hf => hin f (List.mem_of_mem_take hf)) false e.row e.col
      (hin e (List.mem_of_getElem? he)).1
  rw [drawBits_collided]
  simp only [Bool.false_eq_true, false_or, Collides, List.getElem?_map, Option.map_eq_some_iff]
  constructor
  · rintro ⟨k, -, ⟨e, he, rfl⟩, hb, hp⟩
    exact ⟨k, e, he, hb, (hpix k e he).symm.trans hp⟩
  · rintro ⟨k, e, he, hb, hp⟩
    exact ⟨k, e.drawn, ⟨e, he, rfl⟩, hb, (hpix k e he).trans hp⟩

end

/-! ## The state after a completed DXYN -/

/-- The bitmap and `collided` after all rows of a sprite (R241). -/
def State.drawSprite (s : State) (x y : RegIdx) (n : BitVec 4) : Bitmap × Bool :=
  drawBits s.cfg.width (spriteBits s (s.v x).toNat (s.v y).toNat 0 n.toNat) (s.disp, false)

/-- The state after a DXYN whose sprite bytes all lie in memory (R241). -/
def State.afterDraw (s : State) (x y : RegIdx) (n : BitVec 4) : State :=
  ((s.advance.setV vf 0).setDisp (s.drawSprite x y n).1).setV vf (flagByte (s.drawSprite x y n).2)

theorem exec_drw_eq {s : State} {n : BitVec 4} (h : SpriteInMemory s n) (x y : RegIdx) :
    exec (.drw x y n) s = .next (s.afterDraw x y n) := by
  rw [spriteInMemory_iff] at h
  have hrows :=
    (drawRows_eq n.toNat 0 (s.v x).toNat (s.v y).toNat false (s.advance.setV vf 0)).trans (if_pos h)
  simp only [exec, execDrw, hrows]
  rfl

section
variable (s : State) (x y : RegIdx) (n : BitVec 4)

theorem State.afterDraw_eq :
    s.afterDraw x y n = { s with regs := (s.afterDraw x y n).regs, disp := (s.afterDraw x y n).disp, pc := s.pc + 2 } := rfl

@[simp] theorem State.afterDraw_disp_length : (s.afterDraw x y n).disp.length = s.disp.length :=
  drawBits_length _ _ _

@[simp] theorem State.afterDraw_byteAt (a : Nat) : (s.afterDraw x y n).byteAt a = s.byteAt a := rfl

theorem State.afterDraw_v_ne {k : RegIdx} (hk : k ≠ vf) : (s.afterDraw x y n).v k = s.v k :=
  (State.v_setV_ne _ _ _ _ hk).trans (State.v_setV_ne s.advance _ _ _ hk)

@[simp] theorem State.afterDraw_v_vf : (s.afterDraw x y n).v vf = flagByte (s.drawSprite x y n).2 :=
  State.v_setV_same _ _ _

theorem State.afterDraw_pixel (p q : Nat) :
    (s.afterDraw x y n).pixel p q = Bitmap.pixel s.cfg.width (s.drawSprite x y n).1 p q := rfl

end

section
variable {s : State} {n : BitVec 4} (hd : HasDisplay s) (hm : SpriteInMemory s n) (x y : RegIdx)
include hd hm

/-- On every display, each pixel is what the bits leave there one by one (R242, D22). -/
theorem afterDraw_pixel_eq_pixelAfter {p q : Nat} (hq : q < s.cfg.width) :
    (s.afterDraw x y n).pixel p q = pixelAfter s (drawnBits s x y n) p q := by
  rw [drawnBits_eq, Nat.min_eq_left ((spriteInMemory_iff s n).1 hm)]
  exact (pixelAfter_eq_drawBits (spriteBits_inside hd _ _ _) false p q hq).symm

/-- On every display, `collided` is `Collides` (R241, R242). -/
theorem drawSprite_collided_iff : (s.drawSprite x y n).2 = true ↔ Collides s (drawnBits s x y n) := by
  rw [drawnBits_eq, Nat.min_eq_left ((spriteInMemory_iff s n).1 hm)]
  exact (collides_iff_drawBits (spriteBits_inside hd _ _ _)).symm

/-! ### A display on which no two bits of the sprite share a pixel -/

variable (hw : 8 ≤ s.cfg.width) (hn : n.toNat ≤ s.cfg.height)
include hw hn

theorem afterDraw_pixel_of_covered {r c : Nat} (hr : r < n.toNat) (hc : c < 8) :
    (s.afterDraw x y n).pixel (spriteRow s y r) (spriteCol s x c) =
      Bool.xor (s.pixel (spriteRow s y r) (spriteCol s x c)) (spriteBit s r c) :=
  (drawBits_spec _ _ _ (spriteBits_inside hd _ _ _) (spriteBits_pairwise s _ _ _ hw hn)).1 _
    ((mem_spriteBits_iff hm x y _).2 ⟨r, c, hr, hc, rfl⟩)

theorem afterDraw_pixel_of_uncovered {p q : Nat} (hq : q < s.cfg.width)
    (h : ∀ r c, r < n.toNat → c < 8 → ¬ (p = spriteRow s y r ∧ q = spriteCol s x c)) :
    (s.afterDraw x y n).pixel p q = s.pixel p q := by
  refine (drawBits_spec _ _ (s.disp, false) (spriteBits_inside hd _ _ _) (spriteBits_pairwise s _ _ _ hw hn)).2.1 p q hq ?_
  intro e he
  obtain ⟨r, c, hr, hc, rfl⟩ := (mem_spriteBits_iff hm x y e).1 he
  exact h r c hr hc

theorem drawSprite_collided_iff_covered : (s.drawSprite x y n).2 = true ↔
    ∃ r c, r < n.toNat ∧ c < 8 ∧ spriteBit s r c = true ∧ s.pixel (spriteRow s y r) (spriteCol s x c) = true := by
  have h := (drawBits_spec _ _ (s.disp, false) (spriteBits_inside hd _ _ _)
    (spriteBits_pairwise s (s.v x).toNat (s.v y).toNat n.toNat hw hn)).2.2
  rw [State.drawSprite, h, Bool.false_or, List.any_eq_true]
  constructor
  · rintro ⟨e, he, hb⟩
    obtain ⟨r, c, hr, hc, rfl⟩ := (mem_spriteBits_iff hm x y e).1 he
    exact ⟨r, c, hr, hc, Bool.and_eq_true_iff.1 hb⟩
  · rintro ⟨r, c, hr, hc, hb⟩
    exact ⟨_, (mem_spriteBits_iff hm x y _).2 ⟨r, c, hr, hc, rfl⟩, Bool.and_eq_true_iff.2 hb⟩

end

theorem State.afterDraw_v_vf_of_collided {s : State} {x y : RegIdx} {n : BitVec 4}
    (h : (s.drawSprite x y n).2 = true) : (s.afterDraw x y n).v vf = 1 := by
  rw [State.afterDraw_v_vf, h]; rfl

theorem State.afterDraw_v_vf_of_not_collided {s : State} {x y : RegIdx} {n : BitVec 4}
    (h : ¬ (s.drawSprite x y n).2 = true) : (s.afterDraw x y n).v vf = 0 := by
  rw [State.afterDraw_v_vf, Bool.eq_false_of_not_eq_true h]; rfl

end Sys2Proof.Machine

namespace Sys2Proof.Proofs

open Sys2Proof.Machine Sys2Proof.Claims

/-- Settles O55: the next state is `afterDraw`, whose pixels and flag are the ordered drawing of `drawnBits`; where no two bits
share a pixel, `drawBits_spec` gives the closed form. -/
theorem drawXorsTheSpriteAndReportsCollision : Obligations.DrawXorsTheSpriteAndReportsCollision := by
  intro x y n s hd hm
  have hcol := drawSprite_collided_iff hd hm x y
  refine ⟨s.afterDraw x y n, exec_drw_eq hm x y, s.afterDraw_eq x y n, s.afterDraw_byteAt x y n,
    fun k hk => s.afterDraw_v_ne x y n hk, s.afterDraw_disp_length x y n,
    fun p q _ hq => afterDraw_pixel_eq_pixelAfter hd hm x y hq,
    fun h => State.afterDraw_v_vf_of_collided (hcol.2 h),
    fun h => State.afterDraw_v_vf_of_not_collided (mt hcol.1 h), fun hw hn => ?_⟩
  have hcov := drawSprite_collided_iff_covered hd hm x y hw hn
  refine ⟨fun r c hr hc => afterDraw_pixel_of_covered hd hm x y hw hn hr hc,
    fun p q _ hq h => afterDraw_pixel_of_uncovered hd hm x y hw hn hq h,
    fun h => State.afterDraw_v_vf_of_collided (hcov.2 h),
    fun h => State.afterDraw_v_vf_of_not_collided (mt hcov.1 ?_)⟩
  rintro ⟨r, c, hr, hc, hb⟩
  exact h r c hr hc hb

end Sys2Proof.Proofs
end

section
/-! PROOFS. What one instruction and one step leave unchanged, field by field (spec/10_state.md R32, R40, R43, R44, R48, R49,
R51). -/

namespace Sys2Proof.Machine

open Sys2Proof.Claims

/-! ## The frame of one instruction -/

/-- The fields of the state an instruction keeps, and for each field the instructions that may change it. -/
structure ExecFrame (i : Instr) (s t : State) : Prop where
  keys : t.keys = s.keys
  latch : t.latch = s.latch ∨ t.latch = none ∧ ∃ x, i = .ldK x
  stack : t.stack = s.stack ∨ ∃ nnn, i = .call nnn
  sp : t.sp = s.sp ∨ i = .ret ∨ ∃ nnn, i = .call nnn
  disp : t.disp = s.disp ∨ i = .cls ∨ ∃ x y n, i = .drw x y n
  index : t.index = s.index ∨ (∃ nnn, i = .ldI nnn) ∨ ∃ x, i = .addI x ∨ i = .ldF x
  mem : t.mem = s.mem ∨ ∃ x, i = .ldB x ∨ i = .ldStore x

theorem ExecShape.frame {i : Instr} {s t : State} (h : ExecShape i s t) : ExecFrame i s t := by
  cases i <;> simp only [ExecShape] at h
  case ldK x =>
    rcases h with ⟨h, -⟩ | rfl
    · rw [h]; constructor <;> simp
    · constructor <;> simp
  case ldByte | addByte | ldReg | orReg | andReg | xorReg | ldFromDT | addReg | subReg | shr | subn | shl | rnd | drw |
      ldLoad =>
    rw [h.1]; constructor <;> simp
  all_goals rw [h]; constructor <;> simp

/-- A general register keeps its value under every instruction R32 does not list for it. -/
theorem ExecShape.v_eq {i : Instr} {s t : State} {k : RegIdx} (h : ExecShape i s t) (hk : mayWrite k i = false) :
    t.v k = s.v k := by
  cases i
  case ldByte | addByte | ldReg | orReg | andReg | xorReg | ldFromDT | rnd => exact h.2 k (by simpa [mayWrite] using hk)
  case addReg | subReg | shr | subn | shl =>
    simp only [mayWrite, Bool.or_eq_false_iff, beq_eq_false_iff_ne] at hk
    exact h.2 k hk.1 hk.2
  case drw => exact h.2 k (by simpa [mayWrite] using hk)
  case ldLoad => exact h.2 k (by simpa [mayWrite] using hk)
  case ldK x =>
    rcases h with ⟨-, h⟩ | rfl
    · exact h k (by simpa [mayWrite] using hk)
    · rfl
  all_goals exact (congrArg (State.v · k) h).trans rfl

/-! ## The frame of one step -/

/-- A part of the state that neither the provisional `pc` nor a raised failure touches changes in a step only by the
instruction at `pc`. -/
theorem step_changes_by_exec {α : Type} {f : State → α} (hadv : ∀ s : State, f s.advance = f s)
    (hraise : ∀ (s : State) (e : ErrRecord), f (s.raise e) = f s) {s t : State} (h : step s = .next t) (hne : f t ≠ f s) :
    ∃ i, s.instrAtPc = some i ∧ ExecShape i s t := by
  rcases step_shape s t h with ⟨-, rfl⟩ | ⟨-, -, ix, rfl⟩ | ⟨w, -, -, -, rfl⟩ | ⟨i, hi, hs, -⟩
  · exact absurd rfl hne
  · exact absurd (hraise _ _) hne
  · exact absurd ((hraise _ _).trans (hadv s)) hne
  · exact ⟨i, hi, hs⟩

end Sys2Proof.Machine

namespace Sys2Proof.Proofs

open Sys2Proof.Machine Sys2Proof.Claims

/-- Settles O24: the frame of the instruction at `pc`. -/
theorem onlyCallAndRetChangeTheStack : Obligations.OnlyCallAndRetChangeTheStack := by
  intro s t h
  constructor
  · intro hne
    obtain ⟨i, hi, hs⟩ := step_changes_by_exec State.advance_stack State.raise_stack h hne
    obtain ⟨nnn, rfl⟩ := hs.frame.stack.resolve_left hne
    exact ⟨nnn, hi⟩
  · intro hne
    obtain ⟨i, hi, hs⟩ := step_changes_by_exec State.advance_sp State.raise_sp h hne
    rcases hs.frame.sp.resolve_left hne with rfl | ⟨nnn, rfl⟩
    · exact .inl hi
    · exact .inr ⟨nnn, hi⟩

/-- Settles O26: the frame of the instruction at `pc`. -/
theorem stepsKeepKeysAndOnlyTheKeyWaitEmptiesTheLatch :
    Obligations.StepsKeepKeysAndOnlyTheKeyWaitEmptiesTheLatch := by
  intro s t h
  constructor
  · by_contra hne
    obtain ⟨i, -, hs⟩ := step_changes_by_exec State.advance_keys State.raise_keys h hne
    exact hne hs.frame.keys
  · intro hne
    obtain ⟨i, hi, hs⟩ := step_changes_by_exec State.advance_latch State.raise_latch h hne
    obtain ⟨hl, x, rfl⟩ := hs.frame.latch.resolve_left hne
    exact ⟨hl, x, hi⟩

/-- Settles O27: the frame of the instruction at `pc`. -/
theorem onlyClearAndDrawChangeTheDisplay : Obligations.OnlyClearAndDrawChangeTheDisplay := by
  intro s t h hne
  obtain ⟨i, hi, hs⟩ := step_changes_by_exec State.advance_disp State.raise_disp h hne
  rcases hs.frame.disp.resolve_left hne with rfl | ⟨x, y, n, rfl⟩
  · exact .inl hi
  · exact .inr ⟨x, y, n, hi⟩

/-- Settles O28: the register frame of the instruction at `pc`. -/
theorem onlyListedInstructionsWriteARegister : Obligations.OnlyListedInstructionsWriteARegister := by
  intro s t k h hne
  obtain ⟨i, hi, hs⟩ := step_changes_by_exec (f := (State.v · k)) (State.advance_v · k) (State.raise_v · · k) h hne
  refine ⟨i, hi, ?_⟩
  by_contra hk
  exact hne (hs.v_eq (Bool.eq_false_of_not_eq_true hk))

/-- Settles O29: the frame of the instruction at `pc`. -/
theorem onlyIndexInstructionsWriteTheIndex : Obligations.OnlyIndexInstructionsWriteTheIndex := by
  intro s t h hne
  obtain ⟨i, hi, hs⟩ := step_changes_by_exec State.advance_index State.raise_index h hne
  rcases hs.frame.index.resolve_left hne with ⟨nnn, rfl⟩ | ⟨x, rfl | rfl⟩
  · exact .inl ⟨nnn, hi⟩
  · exact .inr ⟨x, .inl hi⟩
  · exact .inr ⟨x, .inr hi⟩

end Sys2Proof.Proofs
end

section
/-! PROOFS. The call stack: what RET and CALL do with room and without (spec/10_state.md R43, R44, 41_control_flow.md R170,
R172). -/

namespace Sys2Proof.Machine

open Sys2Proof.Claims

/-! ## RET and CALL by cases -/

/-- The state after a RET that finds an entry: the newest one is `pc`, and it is not cleared (R44). -/
def State.afterRet (s : State) : State := { s with pc := s.stack.getD (s.sp - 1) 0, sp := s.sp - 1 }

/-- The state after a CALL that finds room: `A + 2` is the newest entry (R43, R172). -/
def State.afterCall (s : State) (nnn : BitVec 12) : State :=
  { s with pc := zextAddr nnn, stack := s.stack.set s.sp (s.pc + 2), sp := s.sp + 1 }

@[simp] theorem State.afterCall_sp (s : State) (nnn : BitVec 12) : (s.afterCall nnn).sp = s.sp + 1 := rfl

@[simp] theorem State.afterCall_stack (s : State) (nnn : BitVec 12) :
    (s.afterCall nnn).stack = s.stack.set s.sp (s.pc + 2) := rfl

@[simp] theorem State.afterCall_cfg (s : State) (nnn : BitVec 12) : (s.afterCall nnn).cfg = s.cfg := rfl

theorem exec_ret_of_empty {s : State} (h : s.sp = 0) :
    exec .ret s = .next (s.advance.raise (outOfBoundsRecord s.pc (some (encode .ret)) .stackUnderflow 0)) := by
  have hpop : popStack s.advance = .failed .stackUnderflow 0 s.advance := if_pos h
  simp only [exec, execRet, hpop, Access.conclude_failed]

theorem exec_ret_of_nonempty {s : State} (h : s.sp ≠ 0) : exec .ret s = .next s.afterRet := by
  have hpop : popStack s.advance = .ok (s.stack.getD (s.sp - 1) 0) { s.advance with sp := s.sp - 1 } := if_neg h
  simp only [exec, execRet, hpop, Access.conclude_ok]
  rfl

theorem exec_call_of_full {s : State} (h : s.sp = s.cfg.stackCapacity) (nnn : BitVec 12) :
    exec (.call nnn) s =
      .next (s.advance.raise (outOfBoundsRecord s.pc (some (encode (.call nnn))) .stackOverflow s.sp)) := by
  have hpush : pushStack s.advance.pc s.advance = .failed .stackOverflow s.sp s.advance := if_pos h
  simp only [exec, execCall, hpush, Access.conclude_failed]

theorem exec_call_of_room {s : State} (h : s.sp ≠ s.cfg.stackCapacity) (nnn : BitVec 12) :
    exec (.call nnn) s = .next (s.afterCall nnn) := by
  have hpush : pushStack s.advance.pc s.advance =
      .ok () { s.advance with stack := s.stack.set s.sp (s.pc + 2), sp := s.sp + 1 } := if_neg h
  simp only [exec, execCall, hpush, Access.conclude_ok]
  rfl

/-! ## The bounds of the stack -/

theorem State.stackOk_iff (s : State) :
    s.stackOk = true ↔ s.stack.length = s.cfg.stackCapacity ∧ s.sp ≤ s.cfg.stackCapacity := by
  simp [State.stackOk]

theorem State.afterCall_stackOk {s : State} (hok : s.stackOk = true) (h : s.sp ≠ s.cfg.stackCapacity) (nnn : BitVec 12) :
    (s.afterCall nnn).stackOk = true := by
  rw [State.stackOk_iff] at hok ⊢
  rw [State.afterCall_stack, State.afterCall_sp, State.afterCall_cfg, List.length_set]
  omega

theorem State.afterRet_stackOk {s : State} (hok : s.stackOk = true) : s.afterRet.stackOk = true := by
  obtain ⟨hlen, hle⟩ := s.stackOk_iff.1 hok
  exact s.afterRet.stackOk_iff.2 ⟨hlen, (Nat.sub_le _ _).trans hle⟩

theorem zextAddr_toNat (nnn : BitVec 12) : (zextAddr nnn).toNat = nnn.toNat := by
  have := nnn.isLt
  simp only [zextAddr, BitVec.toNat_setWidth]
  omega

/-! ## Nested calls -/

theorem execAll_append {is js : List Instr} {s t : State} (h : execAll is s = .next t) :
    execAll (is ++ js) s = execAll js t := by
  induction is generalizing s with
  | nil => cases h; rfl
  | cons i is ih =>
    obtain ⟨u, hu⟩ := exec_next i s
    simp only [execAll, hu] at h
    simp only [List.cons_append, execAll, hu, ih h]

/-- The calls of `targets` and then as many returns. -/
def nestedCalls (targets : List (BitVec 12)) : List Instr :=
  targets.map Instr.call ++ List.replicate targets.length .ret

theorem nestedCalls_cons (nnn : BitVec 12) (targets : List (BitVec 12)) :
    nestedCalls (nnn :: targets) = .call nnn :: (nestedCalls targets ++ [.ret]) := by
  simp [nestedCalls, List.replicate_succ']

/-- Nested calls and their returns change `pc` and entries at or above `sp` alone; the outermost return goes to the
instruction after the outermost call. -/
theorem execAll_nestedCalls {s : State} (targets : List (BitVec 12)) (hok : s.stackOk = true)
    (hroom : s.sp + targets.length ≤ s.cfg.stackCapacity) :
    ∃ t, execAll (nestedCalls targets) s = .next t ∧ (targets ≠ [] → t.pc = s.pc + 2) ∧
      t = { s with pc := t.pc, stack := t.stack } ∧ ∀ k, k < s.sp → t.stack[k]? = s.stack[k]? := by
  induction targets generalizing s with
  | nil => exact ⟨s, rfl, fun h => absurd rfl h, rfl, fun _ _ => rfl⟩
  | cons nnn targets ih =>
    obtain ⟨hlen, -⟩ := s.stackOk_iff.1 hok
    rw [List.length_cons] at hroom
    have hfree : s.sp ≠ s.cfg.stackCapacity := by omega
    obtain ⟨u, hu, -, hueq, hkept⟩ :=
      ih (s.afterCall_stackOk hok hfree nnn) (by rw [State.afterCall_sp, State.afterCall_cfg]; omega)
    simp only [State.afterCall_sp, State.afterCall_stack] at hkept
    have hsp : u.sp = s.sp + 1 := (congrArg State.sp hueq).trans rfl
    have htop : u.stack[s.sp]? = some (s.pc + 2) := by
      rw [hkept s.sp (by omega), List.getElem?_set_self (by omega)]
    refine ⟨u.afterRet, ?_, fun _ => ?_, ?_, fun k hk => ?_⟩
    · rw [nestedCalls_cons, execAll, exec_call_of_room hfree]
      simp only [execAll_append hu, execAll, exec_ret_of_nonempty (show u.sp ≠ 0 by omega)]
    · simp [State.afterRet, hsp, htop]
    · rw [hueq]
      rfl
    · exact (hkept k (by omega)).trans (List.getElem?_set_ne (by omega))

end Sys2Proof.Machine

namespace Sys2Proof.Proofs

open Sys2Proof.Machine Sys2Proof.Claims

/-- Settles O36: RET on a stack with an entry, and on an empty one. -/
theorem retPopsTheReturnAddress : Obligations.RetPopsTheReturnAddress := by
  intro s
  constructor
  · intro target hsp htop
    rw [exec_ret_of_nonempty hsp, State.afterRet, List.getD_eq_getElem?_getD, htop]
    rfl
  · intro hsp
    exact exec_ret_of_empty hsp

/-- Settles O37: CALL with room on the stack, and on a full one. -/
theorem callPushesTheReturnAddress : Obligations.CallPushesTheReturnAddress := by
  intro nnn s hok
  obtain ⟨hlen, -⟩ := s.stackOk_iff.1 hok
  constructor
  · intro hroom
    refine ⟨_, exec_call_of_room hroom.ne nnn, rfl, zextAddr_toNat nnn, ?_, fun k hk => ?_, fun _ => rfl⟩
    · exact List.getElem?_set_self (by omega)
    · exact List.getElem?_set_ne hk.symm
  · intro hfull
    rw [exec_call_of_full hfull, ← hfull]
    rfl

/-- Settles O38, by induction on the nested calls: the innermost calls and returns come back to the state the outermost call
left, below its entry. -/
theorem nestedCallsReturnAfterTheOutermost : Obligations.NestedCallsReturnAfterTheOutermost := by
  intro s targets hok hne hroom
  obtain ⟨t, ht, hpc, heq, hkept⟩ := execAll_nestedCalls targets hok hroom
  exact ⟨t, ht, hpc hne, heq, hkept⟩

end Sys2Proof.Proofs
end

section
/-! PROOFS. How a step ends: it completes, raises, or is one of the three cases of the key wait (spec/40_execute_cycle.md R149,
R150, 46_input.md R284, R285); the mode transitions of 10_state.md R53 follow. -/

namespace Sys2Proof.Machine

/-! ## How an instruction ends -/

/-- An instruction completed, with mode and error kept, or it raised. -/
def CompletesOrRaises (s t : State) : Prop :=
  (t.mode = s.mode ∧ t.err = s.err) ∨ (t.mode = .halted ∧ t.err.isSome = true)

/-- A checked instruction whose access and whose end keep mode and error completes or raises. -/
theorem Access.conclude_completesOrRaises {α : Type} {A : Addr} {w : Word} {k : α → State → State} {r : Access α}
    {s t : State} (hk : ∀ a u, r = .ok a u → (k a u).mode = s.mode ∧ (k a u).err = s.err)
    (h : r.conclude A w k = .next t) : CompletesOrRaises s t := by
  cases r with
  | ok a u => cases h; exact .inl (hk a u rfl)
  | failed sp ix u => cases h; exact .inr ⟨rfl, rfl⟩

theorem keySkip_eq (A : Addr) (taken : Bool) (s : State) :
    keySkip A taken s = s.setPc (if taken then A + 4 else s.pc) := by
  cases taken <;> rfl

theorem keyIsDown_ok {k : Byte} {s u : State} {down : Bool} (h : keyIsDown k s = .ok down u) : u = s := by
  rcases keyIsDown_cases k s with ⟨_, e⟩ | ⟨_, e⟩ <;> rw [e] at h <;> cases h
  rfl

theorem storeBytes_ok {bs : List Byte} {a : Nat} {s u : State} (h : storeBytes bs a s = .ok () u) :
    u = s.pokeBytes a bs := by
  rw [storeBytes_eq] at h
  split at h <;> cases h
  rfl

theorem exec_completesOrRaises {i : Instr} {s t : State} (h : exec i s = .next t) (hi : ∀ x, i ≠ .ldK x) :
    CompletesOrRaises s t := by
  have hs := exec_shape i s t h
  cases i <;> simp only [ExecShape] at hs
  case ldK x => exact absurd rfl (hi x)
  case ret =>
    refine Access.conclude_completesOrRaises (fun a u hu => ?_) h
    rw [popStack_eq] at hu
    split at hu <;> cases hu
    exact ⟨rfl, rfl⟩
  case call nnn =>
    refine Access.conclude_completesOrRaises (fun a u hu => ?_) h
    rw [pushStack_eq] at hu
    split at hu <;> cases hu
    exact ⟨rfl, rfl⟩
  case skp | sknp =>
    refine Access.conclude_completesOrRaises (fun a u hu => ?_) h
    rw [keyIsDown_ok hu, keySkip_eq]
    exact ⟨rfl, rfl⟩
  case ldB | ldStore =>
    refine Access.conclude_completesOrRaises (fun a u hu => ?_) h
    rw [storeBytes_ok hu]
    simp
  case ldLoad x =>
    obtain ⟨v, hv, -, hr⟩ := loadRegs_spec (x.toNat + 1) 0 s.base s.advance (by have := x.isLt; omega)
    refine Access.conclude_completesOrRaises (fun a u hu => ?_) h
    rw [hr] at hu
    split at hu <;> cases hu
    rw [hv]
    exact ⟨rfl, rfl⟩
  case drw x y n =>
    refine Access.conclude_completesOrRaises (fun a u hu => ?_) h
    rw [drawRows_eq] at hu
    split at hu <;> cases hu
    exact ⟨rfl, rfl⟩
  case ldByte | addByte | ldReg | orReg | andReg | xorReg | ldFromDT | addReg | subReg | shr | subn | shl | rnd =>
    rw [hs.1]
    exact .inl ⟨rfl, rfl⟩
  all_goals
    rw [hs]
    exact .inl ⟨rfl, rfl⟩

/-! ## How a step ends -/

/-- How a step that has a next state ends. -/
inductive StepEnd (s t : State) : Prop
  | completes (hawait : s.mode ≠ .awaitingKey) (hmode : t.mode = s.mode) (herr : t.err = s.err)
  | raises (hrun : s.mode = .running ∨ s.mode = .awaitingKey ∧ s.wordAtPc = none) (hmode : t.mode = .halted)
      (herr : t.err.isSome = true)
  | waits (x : RegIdx) (hi : s.instrAtPc = some (.ldK x)) (hmode : s.mode = .running) (ht : t = s.enterKeyWait)
  | stalls (ht : t = s)
  | wakes (x : RegIdx) (k : KeyCode) (hi : s.instrAtPc = some (.ldK x)) (hmode : s.mode = .awaitingKey)
      (hlatch : s.latch = some k) (ht : t = s.completeKeyWait x k)

/-- The key wait in every mode (46_input.md R284, R285). -/
theorem StepEnd.of_exec_ldK {x : RegIdx} {s t : State} (hi : s.instrAtPc = some (.ldK x))
    (h : exec (.ldK x) s = .next t) : StepEnd s t := by
  rcases hm : s.mode with _ | _ | _ <;> simp only [exec, execLdK, hm] at h
  · cases h
    exact .waits x hi hm rfl
  · rcases hl : s.latch with _ | k <;> simp only [hl] at h <;> cases h
    · exact .stalls rfl
    · exact .wakes x k hi hm hl rfl
  · cases h
    exact .stalls rfl

theorem step_end {s t : State} (h : step s = .next t) : StepEnd s t := by
  rcases step_shape s t h with ⟨hm, rfl⟩ | ⟨hw, hm, ix, rfl⟩ | ⟨w, hm, -, -, rfl⟩ | ⟨i, hi, -, he, hm⟩
  · exact .stalls rfl
  · refine .raises ?_ rfl rfl
    rcases hs : s.mode with _ | _ | _
    · exact .inl rfl
    · exact .inr ⟨rfl, hw⟩
    · exact absurd hs hm
  · exact .raises (.inl hm) rfl rfl
  · by_cases hk : ∃ x, i = .ldK x
    · obtain ⟨x, rfl⟩ := hk
      exact .of_exec_ldK hi he
    · have hrun : s.mode = .running := hm.resolve_right fun hm => hk hm.2
      rcases exec_completesOrRaises he fun x hx => hk ⟨x, hx⟩ with ⟨hmode, herr⟩ | ⟨hmode, herr⟩
      · exact .completes (by simp [hrun]) hmode herr
      · exact .raises (.inl hrun) hmode herr

/-! ## The legal states, part by part -/

theorem State.legal_iff (s : State) : s.legal = true ↔ s.cfg.wellFormed = true ∧ s.stackOk = true ∧ s.dispOk = true ∧
    s.memOk = true ∧ s.errOk = true ∧ s.waitOk = true := by
  simp only [State.legal, Bool.and_eq_true, and_assoc]

theorem State.errOk_iff (s : State) : s.errOk = true ↔ (s.err.isSome = true ↔ s.mode = .halted) := by
  rw [State.errOk, beq_iff_eq, Bool.eq_iff_iff, beq_iff_eq]

theorem isKeyWait_iff (i : Instr) : isKeyWait i = true ↔ ∃ x, i = .ldK x := by
  cases i <;> simp [isKeyWait]

theorem State.waitOk_iff (s : State) :
    s.waitOk = true ↔ (s.mode = .awaitingKey → ∃ x, s.instrAtPc = some (.ldK x)) := by
  rcases hi : s.instrAtPc with _ | i <;> simp [State.waitOk, hi, isKeyWait_iff, imp_iff_not_or]

/-- A machine that waits over an FX0A has a word at `pc`. -/
theorem State.waitOk_wordAtPc {s : State} (h : s.waitOk = true) (hm : s.mode = .awaitingKey) : s.wordAtPc ≠ none := by
  obtain ⟨x, hx⟩ := s.waitOk_iff.1 h hm
  intro hw
  simp [State.instrAtPc, hw] at hx

theorem StepEnd.errOk {s t : State} (h : StepEnd s t) (hs : s.errOk = true) : t.errOk = true := by
  rw [State.errOk_iff] at hs ⊢
  cases h with
  | completes _ hmode herr => rw [hmode, herr]; exact hs
  | raises _ hmode herr => exact ⟨fun _ => hmode, fun _ => herr⟩
  | waits x _ hmode ht => subst ht; simpa [State.enterKeyWait, hmode] using hs
  | stalls ht => subst ht; exact hs
  | wakes x k _ hmode _ ht => subst ht; simpa [State.completeKeyWait, hmode] using hs

theorem StepEnd.waitOk {s t : State} (h : StepEnd s t) (hs : s.waitOk = true) : t.waitOk = true := by
  rw [State.waitOk_iff]
  intro hm
  cases h with
  | completes hawait hmode _ => exact absurd (hmode.symm.trans hm) hawait
  | raises _ hmode _ => exact absurd (hmode.symm.trans hm) (by decide)
  | waits x hi _ ht =>
    subst ht
    exact ⟨x, (State.instrAtPc_congr (s := s) (t := s.enterKeyWait) rfl rfl rfl).trans hi⟩
  | stalls ht => subst ht; exact t.waitOk_iff.1 hs hm
  | wakes x k _ _ _ ht => subst ht; cases hm

end Sys2Proof.Machine
end

section
/-! PROOFS. Every step keeps the state legal, and what a legal session's commands do with it (spec/10_state.md R41, R51, R53,
R54, 20_memory.md R80, 70_reset_and_hazards.md R342). -/

namespace Sys2Proof.Machine

/-! ## The stack, the bitmap and memory through an instruction -/

/-- A predicate that the provisional `pc`, a raised failure and every instruction keep is kept by every step. -/
theorem step_keeps {P : State → Prop} (hadv : ∀ s, P s → P s.advance) (hraise : ∀ s e, P s → P (s.raise e))
    (hexec : ∀ i s t, exec i s = .next t → P s → P t) {s t : State} (h : step s = .next t) (hs : P s) : P t := by
  rcases step_shape s t h with ⟨-, rfl⟩ | ⟨-, -, ix, rfl⟩ | ⟨w, -, -, -, rfl⟩ | ⟨i, -, -, he, -⟩
  · exact hs
  · exact hraise _ _ hs
  · exact hraise _ _ (hadv _ hs)
  · exact hexec i s t he hs

theorem exec_stackOk (i : Instr) (s t : State) (h : exec i s = .next t) (hs : s.stackOk = true) : t.stackOk = true := by
  have hshape := exec_shape i s t h
  have hframe := hshape.frame
  cases i
  case ret =>
    by_cases hsp : s.sp = 0
    · rw [exec_ret_of_empty hsp] at h; cases h; exact hs
    · rw [exec_ret_of_nonempty hsp] at h; cases h; exact s.afterRet_stackOk hs
  case call nnn =>
    by_cases hsp : s.sp = s.cfg.stackCapacity
    · rw [exec_call_of_full hsp] at h; cases h; exact hs
    · rw [exec_call_of_room hsp] at h; cases h; exact s.afterCall_stackOk hs hsp nnn
  all_goals
    have hstack := hframe.stack.resolve_right (by simp)
    have hsp := hframe.sp.resolve_right (by simp)
    rwa [State.stackOk, hstack, hsp, hshape.cfg_eq]

theorem drw_disp_length {x y : RegIdx} {n : BitVec 4} {s t : State} (h : exec (.drw x y n) s = .next t) :
    t.disp.length = s.disp.length := by
  simp only [exec, execDrw, drawRows_eq] at h
  split at h <;> cases h <;> exact drawBits_length _ _ _

theorem exec_dispOk (i : Instr) (s t : State) (h : exec i s = .next t) (hs : s.dispOk = true) : t.dispOk = true := by
  have hshape := exec_shape i s t h
  have hframe := hshape.frame
  cases i
  case cls => cases h; simp [State.dispOk]
  case drw x y n => rwa [State.dispOk, drw_disp_length h, hshape.cfg_eq]
  all_goals
    have hdisp := hframe.disp.resolve_right (by simp)
    rwa [State.dispOk, hdisp, hshape.cfg_eq]

/-- An instruction that stores bytes at `a` writes inside memory alone, where it fails as well. -/
theorem storeBytes_conclude_memOk {bs : List Byte} {a : Nat} {A : Addr} {w : Word} {s t : State}
    (h : (storeBytes bs a s).conclude A w (fun _ s => s) = .next t) (hs : s.memOk = true) : t.memOk = true := by
  rw [storeBytes_eq] at h
  split at h <;> cases h
  · next hfit => exact s.pokeBytes_memOk a bs hs hfit
  · exact s.pokeBytes_memOk a _ hs (List.length_take_le _ _)

theorem exec_memOk (i : Instr) (s t : State) (h : exec i s = .next t) (hs : s.memOk = true) : t.memOk = true := by
  have hshape := exec_shape i s t h
  have hframe := hshape.frame
  cases i
  case ldB x => exact storeBytes_conclude_memOk (s := s.advance) h hs
  case ldStore x => exact storeBytes_conclude_memOk (s := s.advance) h hs
  all_goals
    have hmem := hframe.mem.resolve_right (by simp)
    rwa [State.memOk, hmem, hshape.cfg_eq]

theorem step_legal {s t : State} (h : step s = .next t) (hs : s.legal = true) : t.legal = true := by
  obtain ⟨hcfg, hstack, hdisp, hmem, herr, hwait⟩ := s.legal_iff.1 hs
  refine t.legal_iff.2 ⟨by rwa [step_cfg h], ?_, ?_, ?_, (step_end h).errOk herr, (step_end h).waitOk hwait⟩
  · exact step_keeps (P := (·.stackOk = true)) (fun _ h => h) (fun _ _ h => h) exec_stackOk h hstack
  · exact step_keeps (P := (·.dispOk = true)) (fun _ h => h) (fun _ _ h => h) exec_dispOk h hdisp
  · exact step_keeps (P := (·.memOk = true)) (fun _ h => h) (fun _ _ h => h) exec_memOk h hmem

/-- The one stuck state of R149 is not legal. -/
theorem exists_step_of_legal {s : State} (hs : s.legal = true) : ∃ t, step s = .next t := by
  obtain ⟨-, -, -, -, -, hwait⟩ := s.legal_iff.1 hs
  rcases step_cases s with ⟨-, h⟩ | ⟨-, -, h⟩ | ⟨w, -, -, -, h⟩ | ⟨w, hm, hw, hk, -⟩ | ⟨w, i, -, -, -, -, h⟩
  · exact ⟨_, h⟩
  · exact ⟨_, h⟩
  · exact ⟨_, h⟩
  · obtain ⟨x, hx⟩ := s.waitOk_iff.1 hwait hm
    exact absurd (by simpa [State.instrAtPc, hw] using hx) (hk x)
  · obtain ⟨t, ht⟩ := exec_next i s
    exact ⟨t, h.trans ht⟩

/-! ## The mode through the host's other commands -/

@[simp] theorem State.tickTimers_mode (s : State) : s.tickTimers.mode = s.mode := rfl

@[simp] theorem State.setKey_mode (s : State) (k : Int) (down : Bool) : (s.setKey k down).mode = s.mode := by
  unfold State.setKey
  split <;> rfl

@[simp] theorem State.keyDown_mode (s : State) (k : Int) : (s.keyDown k).mode = s.mode := s.setKey_mode k true

@[simp] theorem State.keyUp_mode (s : State) (k : Int) : (s.keyUp k).mode = s.mode := by
  unfold State.keyUp
  split
  · exact s.setKey_mode k false
  · rfl

/-- A load that changes the mode halts, with a record (20_memory.md R91, D18). -/
theorem State.load_mode (s : State) (bytes : List Byte) (o : Nat) :
    (s.load bytes o).mode = s.mode ∨ (s.load bytes o).mode = .halted ∧ (s.load bytes o).err.isSome = true := by
  unfold State.load
  split
  · exact .inl (s.pokeBytes_mode o bytes)
  · exact .inr ⟨rfl, rfl⟩

/-- After the first reset a legal session holds a legal state, which does not wait in the boot window. -/
theorem Session.legal_iff_of_reset {z : Session} (hp : z.phase ≠ .beforeReset) :
    z.legal = true ↔ z.core.legal = true ∧ (z.phase = .bootWindow → z.core.mode ≠ .awaitingKey) := by
  rcases h : z.phase with _ | _ | _
  · exact absurd h hp
  all_goals simp [Session.legal, Session.windowOk, h]

theorem Session.command_eq_issue {c : Command} {z : Session} (hp : z.phase ≠ .beforeReset) :
    z.command c = z.issue c := by
  rcases h : z.phase with _ | _ | _ <;> simp only [Session.command, h]
  exact absurd h hp

/-- Past the first reset only a load outside the boot window has no next session. -/
theorem Session.exists_issue {c : Command} {z : Session} (hs : z.core.legal = true)
    (hload : ∀ bytes o, c = .load bytes o → z.phase = .bootWindow) : ∃ z', z.issue c = .next z' := by
  cases c with
  | load bytes o => exact ⟨⟨.bootWindow, z.core.load bytes o⟩, by simp [Session.issue, hload bytes o rfl]⟩
  | step =>
    obtain ⟨t, ht⟩ := exists_step_of_legal hs
    exact ⟨⟨.stepping, t⟩, by rw [Session.issue, ht]; rfl⟩
  | reset | tickTimers | keyDown | keyUp | snapshot => exact ⟨_, rfl⟩

end Sys2Proof.Machine

namespace Sys2Proof.Proofs

open Sys2Proof.Machine

/-- Settles O10: each part of `State.legal` is kept on its own; the stack, the bitmap and memory by every instruction, error
and wait by how the step ends. -/
theorem everyStepKeepsTheStateLegal : Obligations.EveryStepKeepsTheStateLegal := by
  intro s t hs h
  exact step_legal h hs

/-- Settles O17: by the phase; past the duty breaches only a step could fail, and from a legal state it does not. -/
theorem sessionRefusesExactlyTheDutyBreaches : Obligations.SessionRefusesExactlyTheDutyBreaches := by
  intro c z hz
  refine ⟨fun ⟨hp, hc⟩ => by simp [Session.command, hp, hc], ?_, fun hreset hload => ?_⟩
  · rintro ⟨hp, bytes, o, rfl⟩
    simp [Session.command, Session.issue, hp]
  · by_cases hp : z.phase = .beforeReset
    · have hc : c = .reset := by simpa [hp] using hreset
      exact ⟨⟨.bootWindow, z.core.resetCommand⟩, by simp [Session.command, hp, hc, Session.issue]⟩
    · rw [Session.command_eq_issue hp]
      refine Session.exists_issue ((Session.legal_iff_of_reset hp).1 hz).1 fun bytes o hc => ?_
      rcases hboot : z.phase with _ | _ | _
      · exact absurd hboot hp
      · rfl
      · exact absurd ⟨hboot, bytes, o, hc⟩ hload

/-- Settles O31: how the step ends, and a load's halt; a state that waits over FX0A cannot fail its fetch, and in the boot
window no state waits. -/
theorem modeTransitionsAreTheListedOnes : Obligations.ModeTransitionsAreTheListedOnes := by
  intro c z z' hz hp h
  obtain ⟨hlegal, hwindow⟩ := (Session.legal_iff_of_reset hp).1 hz
  obtain ⟨-, -, -, -, -, hwait⟩ := z.core.legal_iff.1 hlegal
  have hshape := (Session.command_shape h).2
  cases c with
  | reset => subst hshape; exact ⟨fun _ => rfl, fun hc => absurd rfl hc⟩
  | step =>
    obtain ⟨t, ht, rfl⟩ := hshape
    refine ⟨nofun, fun _ hne => ?_⟩
    cases step_end ht with
    | completes _ hmode _ => exact absurd hmode hne
    | raises hrun hmode herr =>
      have hrun := hrun.resolve_right fun hw => State.waitOk_wordAtPc hwait hw.1 hw.2
      exact .inr (.inr ⟨hrun, hmode, herr, .inl rfl⟩)
    | waits x hi hmode ht => subst ht; exact .inl ⟨hmode, rfl, rfl, x, hi⟩
    | stalls ht => subst ht; exact absurd rfl hne
    | wakes x k hi hmode hlatch ht => subst ht; exact .inr (.inl ⟨hmode, rfl, rfl, x, k, hi, hlatch⟩)
  | load bytes o =>
    obtain ⟨hboot, rfl⟩ := hshape
    refine ⟨nofun, fun _ hne => ?_⟩
    obtain ⟨hmode, herr⟩ := (z.core.load_mode bytes o).resolve_left hne
    have hrun : z.core.mode = .running := by
      rcases hm : z.core.mode with _ | _ | _
      · rfl
      · exact absurd hm (hwindow hboot)
      · exact absurd (hmode.trans hm.symm) hne
    exact .inr (.inr ⟨hrun, hmode, herr, .inr ⟨bytes, o, rfl⟩⟩)
  | tickTimers => subst hshape; exact ⟨nofun, fun _ hne => absurd z.core.tickTimers_mode hne⟩
  | keyDown k => subst hshape; exact ⟨nofun, fun _ hne => absurd (z.core.keyDown_mode k) hne⟩
  | keyUp k => subst hshape; exact ⟨nofun, fun _ hne => absurd (z.core.keyUp_mode k) hne⟩
  | snapshot => subst hshape; exact ⟨nofun, fun _ hne => absurd rfl hne⟩

end Sys2Proof.Proofs
end

section
/-! PROOFS. The state after reset (spec/10_state.md R33, R45, R47, 20_memory.md R82, 70_reset_and_hazards.md R340, R341). -/

namespace Sys2Proof.Machine

/-- Memory lists nothing after reset, so every byte is its reset contents. -/
theorem State.resetCommand_byteAt (s : State) {a : Nat} (ha : a < s.cfg.memSize) :
    s.resetCommand.byteAt a = some (initialByte s.cfg.font a) := if_pos ha

theorem initialByte_eq (font : Vector Byte 80) (a : Nat) :
    initialByte font a = if h : a < 80 then font[a] else 0 := by
  by_cases h : a < 80 <;> simp [initialByte, h]

theorem State.ofReset_legal {cfg : Config} (h : cfg.wellFormed = true) (n : Nat) :
    (State.ofReset cfg n).legal = true := by
  rw [State.legal_iff]
  refine ⟨h, ?_, ?_, rfl, rfl, rfl⟩
  · simp [State.stackOk_iff, State.ofReset]
  · simp [State.dispOk, State.ofReset]

end Sys2Proof.Machine

namespace Sys2Proof.Proofs

open Sys2Proof.Machine

/-- Settles O12: each part of `State.legal` on the reset state. -/
theorem resetIsLegal : Obligations.ResetIsLegal :=
  ⟨fun _ n h => State.ofReset_legal h n, State.ofReset_legal Tests.test_wf_default 0⟩

/-- Settles O13: every register, entry and timer is replicated from zero, and memory lists nothing. -/
theorem resetClearsRegistersStackTimersAndMemory : Obligations.ResetClearsRegistersStackTimersAndMemory := by
  intro s
  refine ⟨fun k => ?_, rfl, fun k hk => ?_, rfl, rfl, fun a ha => ?_⟩
  · simp [State.v, State.resetCommand, State.ofReset]
  · simp [State.resetCommand, State.ofReset, hk]
  · rw [s.resetCommand_byteAt ha, initialByte_eq]

/-- Settles O14: the fields of the reset state; its bitmap is blank. -/
theorem resetRestartsTheEngine : Obligations.ResetRestartsTheEngine := by
  intro s
  refine ⟨rfl, rfl, fun k => ?_, rfl, rfl, rfl, fun r c => ?_, ?_, rfl⟩
  · simp [State.resetCommand, State.ofReset]
  · exact Bitmap.blank_pixel s.cfg.width s.cfg.height r c
  · exact Bitmap.blank_length s.cfg.width s.cfg.height

end Sys2Proof.Proofs
end

section
/-! PROOFS. A step whose word at `pc` is known (spec/40_execute_cycle.md R143 to R145, R149); the jumps (41_control_flow.md R171,
R177) and the fetch that fails after one. -/

namespace Sys2Proof.Machine

open Sys2Proof.Claims

/-! ## A step whose word at `pc` is known -/

theorem step_of_halted {s : State} (hm : s.mode = .halted) : step s = .next s := by
  simp [step, prologue, hm]

/-- A step that finds no word at `pc` fails its fetch (R144). -/
theorem step_of_wordAtPc_none {s : State} (hw : s.wordAtPc = none) (hm : s.mode ≠ .halted) :
    step s = .next (s.failFetch (if s.cfg.memSize ≤ s.pc.toNat then s.pc.toNat else s.pc.toNat + 1)) := by
  rcases step_cases s with ⟨h, -⟩ | ⟨-, -, h⟩ | ⟨w, -, h, -⟩ | ⟨w, -, h, -⟩ | ⟨w, i, h, -⟩
  · exact absurd h hm
  · exact h
  all_goals exact absurd (hw.symm.trans h) nofun

/-- A running step over a word that decodes to nothing fails its decode (R145). -/
theorem step_of_decodeWord_none {s : State} {w : Word} (hw : s.wordAtPc = some w) (hd : decodeWord w = none)
    (hm : s.mode = .running) : step s = .next (s.failDecode w) := by
  rcases step_cases s with ⟨h, -⟩ | ⟨-, h, -⟩ | ⟨v, -, hv, -, h⟩ | ⟨v, h, -⟩ | ⟨v, i, hv, hi, -⟩
  · cases hm.symm.trans h
  · cases hw.symm.trans h
  · cases hw.symm.trans hv
    exact h
  · cases hm.symm.trans h
  · cases hw.symm.trans hv
    cases hd.symm.trans hi

/-- A step over an instruction executes it: any one in RUNNING, FX0A while the machine waits (R143, R149). -/
theorem step_of_instrAtPc {s : State} {i : Instr} (hi : s.instrAtPc = some i)
    (hm : s.mode = .running ∨ s.mode = .awaitingKey ∧ ∃ x, i = .ldK x) : step s = exec i s := by
  rcases step_cases s with ⟨h, -⟩ | ⟨-, h, -⟩ | ⟨w, -, hw, hd, -⟩ | ⟨w, h, hw, hk, -⟩ | ⟨w, j, -, -, hj, -, h⟩
  · simp [h] at hm
  · simp [State.instrAtPc, h] at hi
  · simp [State.instrAtPc, hw, hd] at hi
  · obtain ⟨-, x, rfl⟩ := hm.resolve_left (by simp [h])
    exact absurd (by simpa [State.instrAtPc, hw] using hi) (hk x)
  · cases hi.symm.trans hj
    exact h

/-! ## JP and JP V0 -/

theorem decodeWord_packNNN_jp (nnn : BitVec 12) : decodeWord (packNNN 0x1 nnn) = some (.jp nnn) := by
  simp [decodeWord]

theorem decodeWord_packNNN_jpV0 (nnn : BitVec 12) : decodeWord (packNNN 0xB nnn) = some (.jpV0 nnn) := by
  simp [decodeWord]

theorem exec_jp (nnn : BitVec 12) (s : State) : exec (.jp nnn) s = .next (s.setPc (zextAddr nnn)) := rfl

theorem exec_jpV0 (nnn : BitVec 12) (s : State) : exec (.jpV0 nnn) s = .next (s.setPc (offsetTarget (s.v 0) nnn)) := rfl

theorem onlyPc_setPc (s : State) (a : Addr) : OnlyPc s (s.setPc a) := ⟨rfl, fun _ => rfl⟩

/-- The largest sum is `0xFF + 0xFFF`, so the target of BNNN does not wrap. -/
theorem offsetTarget_toNat (v0 : Byte) (nnn : BitVec 12) : (offsetTarget v0 nnn).toNat = v0.toNat + nnn.toNat := by
  have := v0.isLt
  have := nnn.isLt
  simp only [offsetTarget, zextByte, zextAddr, BitVec.toNat_add, BitVec.toNat_setWidth]
  omega

theorem failsFetchOutside (t : State) : FailsFetchOutside t := by
  intro hm hout
  rw [step_of_wordAtPc_none (t.wordAtPc_none_iff.2 (by omega)) (by simp [hm]), if_pos hout]
  rfl

end Sys2Proof.Machine

namespace Sys2Proof.Proofs

open Sys2Proof.Machine Sys2Proof.Claims

/-- Settles O39: both jumps are a write of `pc`; a jump to its own address writes the value `pc` has. -/
theorem jumpsWriteTheTarget : Obligations.JumpsWriteTheTarget := by
  intro nnn s
  refine ⟨decodeWord_packNNN_jp nnn, decodeWord_packNNN_jpV0 nnn,
    ⟨_, exec_jp nnn s, onlyPc_setPc s _, zextAddr_toNat nnn, failsFetchOutside _, fun hm hi hself => ?_⟩,
    ⟨_, exec_jpV0 nnn s, onlyPc_setPc s _, offsetTarget_toNat (s.v 0) nnn, failsFetchOutside _⟩⟩
  have hpc : zextAddr nnn = s.pc := BitVec.eq_of_toNat_eq ((zextAddr_toNat nnn).trans hself)
  have hsame : s.setPc (zextAddr nnn) = s := by rw [hpc]; rfl
  refine ⟨hsame, ?_, by simp [State.stepResult, hm]⟩
  rw [step_of_instrAtPc hi (.inl hm), exec_jp, hsame]

end Sys2Proof.Proofs
end

section
/-! PROOFS. No instruction reads ST (spec/10_state.md R46): replacing ST before an instruction other than FX18 replaces it in
the next state and changes nothing else. -/

namespace Sys2Proof.Machine

variable (b : Byte)

/-! ## The checked accesses with another ST -/

/-- What an access answers, with another ST in the state it reaches. -/
def Access.setSt {α : Type} (b : Byte) : Access α → Access α
  | .ok a s => .ok a (s.setSt b)
  | .failed sp ix s => .failed sp ix (s.setSt b)

theorem popStack_setSt (s : State) : popStack (s.setSt b) = (popStack s).setSt b := by
  rw [popStack_eq, popStack_eq, apply_ite (Access.setSt b)]
  rfl

theorem pushStack_setSt (v : Addr) (s : State) : pushStack v (s.setSt b) = (pushStack v s).setSt b := by
  rw [pushStack_eq, pushStack_eq, apply_ite (Access.setSt b)]
  rfl

theorem keyIsDown_setSt (k : Byte) (s : State) : keyIsDown k (s.setSt b) = (keyIsDown k s).setSt b := by
  by_cases h : k.toNat < 16 <;> simp only [keyIsDown, h, dite_true, dite_false] <;> rfl

theorem State.pokeBytes_setSt (s : State) (o : Nat) (bs : List Byte) :
    (s.setSt b).pokeBytes o bs = (s.pokeBytes o bs).setSt b := by
  induction bs generalizing s o with
  | nil => rfl
  | cons c bs ih => exact ih (s.poke o c) (o + 1)

theorem storeBytes_setSt (bs : List Byte) (a : Nat) (s : State) :
    storeBytes bs a (s.setSt b) = (storeBytes bs a s).setSt b := by
  rw [storeBytes_eq, storeBytes_eq, apply_ite (Access.setSt b), State.pokeBytes_setSt, State.pokeBytes_setSt]
  rfl

theorem loadRegs_setSt (n k a : Nat) (s : State) : loadRegs n k a (s.setSt b) = (loadRegs n k a s).setSt b := by
  induction n generalizing k a s with
  | zero => rfl
  | succ n ih =>
    simp only [loadRegs, memRead8_eq, State.setSt_cfg]
    by_cases h : a < s.cfg.memSize
    · simp only [h, if_true, Access.bind_ok]
      exact ih (k + 1) (a + 1) (s.setV (BitVec.ofNat 4 k) (Memory.read s.cfg.font s.mem a))
    · simp only [h, if_false, Access.bind_failed]
      rfl

theorem drawRows_setSt (n r cx cy : Nat) (collided : Bool) (s : State) :
    drawRows n r cx cy collided (s.setSt b) = (drawRows n r cx cy collided s).setSt b := by
  rw [drawRows_eq, drawRows_eq, apply_ite (Access.setSt b)]
  rfl

/-- A checked instruction whose access and whose end do not read ST. -/
theorem Access.conclude_setSt {α : Type} {A : Addr} {w : Word} {k : α → State → State} {r r' : Access α} {t : State}
    (hr : r' = r.setSt b) (hk : ∀ a u, k a (u.setSt b) = (k a u).setSt b) (h : r.conclude A w k = .next t) :
    r'.conclude A w k = .next (t.setSt b) := by
  subst hr
  cases r with
  | ok a u => cases h; exact congrArg Host.Outcome.next (hk a u)
  | failed sp ix u => cases h; rfl

theorem keySkip_setSt (A : Addr) (taken : Bool) (s : State) :
    keySkip A taken (s.setSt b) = (keySkip A taken s).setSt b := by
  cases taken <;> rfl

/-! ## An instruction with another ST -/

theorem exec_setSt {i : Instr} {s t : State} (hi : ∀ x, i ≠ .ldST x) (h : exec i s = .next t) :
    exec i (s.setSt b) = .next (t.setSt b) := by
  cases i
  case ldST x => exact absurd rfl (hi x)
  case ret => exact Access.conclude_setSt b (popStack_setSt b s.advance) (fun _ _ => rfl) h
  case call => exact Access.conclude_setSt b (pushStack_setSt b _ s.advance) (fun _ _ => rfl) h
  case skp => exact Access.conclude_setSt b (keyIsDown_setSt b _ s.advance) (fun _ _ => keySkip_setSt b _ _ _) h
  case sknp => exact Access.conclude_setSt b (keyIsDown_setSt b _ s.advance) (fun _ _ => keySkip_setSt b _ _ _) h
  case ldB => exact Access.conclude_setSt b (storeBytes_setSt b _ _ s.advance) (fun _ _ => rfl) h
  case ldStore => exact Access.conclude_setSt b (storeBytes_setSt b _ _ s.advance) (fun _ _ => rfl) h
  case ldLoad => exact Access.conclude_setSt b (loadRegs_setSt b _ _ _ s.advance) (fun _ _ => rfl) h
  case drw => exact Access.conclude_setSt b (drawRows_setSt b _ _ _ _ _ (s.advance.setV vf 0)) (fun _ _ => rfl) h
  case seByte | sneByte | seReg | sneReg =>
    simp only [exec, execSeByte, execSneByte, execSeReg, execSneReg, State.skipIf_eq] at h ⊢
    cases h
    rfl
  case ldK x =>
    simp only [exec, execLdK, State.setSt_mode, State.setSt_latch] at h ⊢
    split at h
    · cases h; rfl
    · split at h <;> cases h <;> rfl
    · cases h; rfl
  all_goals
    cases h
    rfl

/-- FX18 overwrites ST, whatever it was. -/
theorem exec_ldST_setSt (x : RegIdx) (s : State) : exec (.ldST x) (s.setSt b) = exec (.ldST x) s := rfl

/-! ## A step with another ST -/

theorem State.wordAtPc_setSt (s : State) : (s.setSt b).wordAtPc = s.wordAtPc := by
  rw [State.wordAtPc_eq, State.wordAtPc_eq]
  rfl

theorem State.instrAtPc_setSt (s : State) : (s.setSt b).instrAtPc = s.instrAtPc := State.instrAtPc_congr rfl rfl rfl

/-- A step with another ST: the same next state, or the same but for that ST. -/
theorem step_setSt {s t : State} (h : step s = .next t) :
    step (s.setSt b) = .next t ∨ step (s.setSt b) = .next (t.setSt b) := by
  rcases step_cases s with
    ⟨hm, hs⟩ | ⟨hm, hw, hs⟩ | ⟨w, hm, hw, hd, hs⟩ | ⟨w, -, -, -, hs⟩ | ⟨w, i, -, -, hi, hm, hs⟩ <;> rw [hs] at h
  · cases h
    exact .inr (step_of_halted (s := s.setSt b) hm)
  · cases h
    exact .inr (step_of_wordAtPc_none ((State.wordAtPc_setSt b s).trans hw) hm)
  · cases h
    exact .inr (step_of_decodeWord_none ((State.wordAtPc_setSt b s).trans hw) hd hm)
  · cases h
  · rw [step_of_instrAtPc ((State.instrAtPc_setSt b s).trans hi) hm]
    by_cases hst : ∃ x, i = .ldST x
    · obtain ⟨x, rfl⟩ := hst
      exact .inl h
    · exact .inr (exec_setSt b (fun x hx => hst ⟨x, hx⟩) h)

end Sys2Proof.Machine

namespace Sys2Proof.Proofs

open Sys2Proof.Machine

/-- Settles O33: every operation passes ST through unread, and FX18 overwrites it. -/
theorem noStepReadsTheSoundTimer : Obligations.NoStepReadsTheSoundTimer := by
  intro s t b h
  rcases step_setSt b h with hu | hu
  · exact ⟨t, hu, rfl⟩
  · exact ⟨t.setSt b, hu, rfl⟩

end Sys2Proof.Proofs
end

section
/-! PROOFS. Memory under a failed fetch, a load, a 16-bit access and a step (spec/20_memory.md R81, R85, R86, R91, R98,
40_execute_cycle.md R144). -/

namespace Sys2Proof.Machine

/-! ## Loads -/

section
variable {s : State} {bytes : List Byte} {o : Nat}

theorem State.load_of_fits (h : o + bytes.length ≤ s.cfg.memSize) : s.load bytes o = s.pokeBytes o bytes := by
  simp [State.load, loadFits, h]

theorem loadResult_of_fits (h : o + bytes.length ≤ s.cfg.memSize) : loadResult s bytes o = none := by
  simp [loadResult, loadFits, h]

theorem State.load_of_too_large (h : s.cfg.memSize < o + bytes.length) :
    s.load bytes o = s.raise (loadTooLargeRecord o bytes.length) := by
  simp [State.load, loadFits, h]

theorem loadResult_of_too_large (h : s.cfg.memSize < o + bytes.length) :
    loadResult s bytes o = some (loadTooLargeRecord o bytes.length) := by
  simp [loadResult, loadFits, h]

end

theorem loadAddress_toNat {o : Nat} (h : o < 0x10000) : (loadAddress o).toNat = o := by
  rw [loadAddress, if_pos h, BitVec.toNat_ofNat]
  omega

/-! ## 16-bit accesses -/

theorem memRead16_of_byteAt {s : State} {a : Nat} {hi lo : Byte} (hhi : s.byteAt a = some hi)
    (hlo : s.byteAt (a + 1) = some lo) (space : Space) : memRead16 space a s = .ok (bigEndian hi lo) s := by
  simp [memRead16, memRead8, hhi, hlo]

theorem memWrite16_of_room {s : State} {a : Nat} (h : a + 1 < s.cfg.memSize) (v : Word) :
    memWrite16 a v s = .ok () ((s.poke a (highByte v)).poke (a + 1) (lowByte v)) := by
  rw [memWrite16, if_pos (by omega), if_pos h]

/-- Writing the byte an address holds changes no byte. -/
theorem State.byteAt_poke_self {s : State} {a : Nat} {b : Byte} (h : s.byteAt a = some b) (k : Nat) :
    (s.poke a b).byteAt k = s.byteAt k := by
  rw [State.byteAt_poke]
  split
  · next hk => rw [hk.1, h]
  · rfl

end Sys2Proof.Machine

namespace Sys2Proof.Proofs

open Sys2Proof.Machine

/-- Settles O7: without a word at `pc`, a step that is not halted fails its fetch. -/
theorem fetchOutsideMemoryHalts : Obligations.FetchOutsideMemoryHalts := by
  intro s hm hout
  rw [step_of_wordAtPc_none (s.wordAtPc_none_iff.2 hout) hm]
  rfl

/-- Settles O18: a load that fits is a run of unchecked writes; one that does not raises before any write. -/
theorem loadCopiesOrHalts : Obligations.LoadCopiesOrHalts := by
  intro s bytes o
  constructor
  · intro hfit
    rw [State.load_of_fits hfit]
    refine ⟨loadResult_of_fits hfit, s.pokeBytes_eq o bytes, fun k hk => ?_, fun a ha => ?_⟩
    · rw [State.byteAt_pokeBytes, if_pos (by omega), Nat.add_sub_cancel_left]
    · rw [State.byteAt_pokeBytes, if_neg (by omega)]
  · intro hlarge
    rw [State.load_of_too_large hlarge, loadResult_of_too_large hlarge]
    exact ⟨⟨loadAddress o, rfl, loadAddress_toNat⟩, rfl, s.raise_byteAt _⟩

/-- Settles O23: a byte that changes is a change of `mem`, since no step writes the configuration; then the frame of the
instruction at `pc`. -/
theorem onlyStoresChangeMemory : Obligations.OnlyStoresChangeMemory := by
  intro s t a h hne
  obtain ⟨i, hi, hs⟩ := step_changes_by_exec (f := (State.byteAt · a)) (State.advance_byteAt · a)
    (State.raise_byteAt · · a) h hne
  have hmem : t.mem ≠ s.mem := fun hmem => hne (by rw [State.byteAt_eq, State.byteAt_eq, hmem, hs.cfg_eq])
  obtain ⟨x, rfl | rfl⟩ := hs.frame.mem.resolve_left hmem
  · exact ⟨x, .inl hi⟩
  · exact ⟨x, .inr hi⟩

/-- Settles O35: a 16-bit write is two byte writes, and the bytes of a word are put together again big-endian. -/
theorem sixteenBitAccessesRoundTrip : Obligations.SixteenBitAccessesRoundTrip := by
  intro s a h
  constructor
  · intro v
    refine ⟨_, memWrite16_of_room h v, ?_⟩
    rw [memRead16_of_byteAt (hi := highByte v) (lo := lowByte v), bigEndian_bytes]
    · simp [State.byteAt_poke]; omega
    · simp [State.byteAt_poke]; omega
  · obtain ⟨hi, hhi⟩ : ∃ hi, s.byteAt a = some hi := ⟨_, if_pos (by omega)⟩
    obtain ⟨lo, hlo⟩ : ∃ lo, s.byteAt (a + 1) = some lo := ⟨_, if_pos h⟩
    refine ⟨_, memRead16_of_byteAt hhi hlo .memRead, _, memWrite16_of_room h _, fun k => ?_⟩
    rw [highByte_bigEndian, lowByte_bigEndian, State.byteAt_poke_self, State.byteAt_poke_self hhi]
    rw [State.byteAt_poke_self hhi, hlo]

end Sys2Proof.Proofs
end

section
/-! PROOFS. The block transfers FX33, FX55 and FX65: the part that lies in memory, and the first address outside
(spec/43_index_memory.md R223, R224, R225, 20_memory.md R90, 40_execute_cycle.md R150). -/

namespace Sys2Proof.Machine

open Sys2Proof.Claims

/-! ## Stores at `I` -/

/-- The state after the provisional `pc` and the stores at `I` that have room in memory (R90). -/
def State.storeAtIndex (s : State) (bs : List Byte) : State :=
  s.advance.pokeBytes s.base (bs.take (s.cfg.memSize - s.base))

section
variable (s : State) (bs : List Byte)

theorem State.storeAtIndex_eq : s.storeAtIndex bs = { s with mem := (s.storeAtIndex bs).mem, pc := s.pc + 2 } :=
  s.advance.pokeBytes_eq _ _

theorem State.byteAt_storeAtIndex (a : Nat) :
    (s.storeAtIndex bs).byteAt a =
      if s.base ≤ a ∧ a < s.base + bs.length ∧ a < s.cfg.memSize then bs[a - s.base]? else s.byteAt a := by
  rw [State.storeAtIndex, State.byteAt_pokeBytes, List.length_take, State.advance_cfg]
  by_cases h : s.base ≤ a ∧ a < s.base + bs.length ∧ a < s.cfg.memSize
  · rw [if_pos h, if_pos (by omega), List.getElem?_take_of_lt (by omega)]
  · rw [if_neg h, if_neg (by omega), State.advance_byteAt]

/-- An instruction with word `w` that stores `bs` at `I`: the bytes with room are stored, and the first without fails (R150). -/
theorem storeBytes_conclude (w : Word) :
    (storeBytes bs s.base s.advance).conclude s.pc w (fun _ s => s) = .next
      (if bs.length ≤ s.cfg.memSize - s.base then s.storeAtIndex bs
       else (s.storeAtIndex bs).raise (outOfBoundsRecord s.pc (some w) .memWrite (max s.base s.cfg.memSize))) := by
  rw [storeBytes_eq, State.advance_cfg]
  split
  · next hfit => rw [State.storeAtIndex, List.take_of_length_le hfit]; rfl
  · rw [show s.base + (s.cfg.memSize - s.base) = max s.base s.cfg.memSize by omega]; rfl

end

/-- What an instruction with word `w` that stores `bs` at `I` leaves in `t`, in the terms of the statements. -/
structure StoresAtIndex (bs : List Byte) (w : Word) (s t : State) : Prop where
  stored : ∀ j, j < bs.length → s.base + j < s.cfg.memSize → t.byteAt (s.base + j) = bs[j]?
  kept : ∀ a, ¬ (s.base ≤ a ∧ a < s.base + bs.length) → t.byteAt a = s.byteAt a
  completes : bs.length ≤ s.cfg.memSize - s.base → t = { s with mem := t.mem, pc := s.pc + 2 }
  raises : s.cfg.memSize - s.base < bs.length → t = { s with
    mem := t.mem, pc := s.pc + 2, mode := .halted,
    err := some (outOfBoundsRecord s.pc (some w) .memWrite (max s.base s.cfg.memSize)) }

theorem exists_storesAtIndex (bs : List Byte) (w : Word) (s : State) :
    ∃ t, (storeBytes bs s.base s.advance).conclude s.pc w (fun _ s => s) = .next t ∧ StoresAtIndex bs w s t := by
  have hstored : ∀ j, j < bs.length → s.base + j < s.cfg.memSize → (s.storeAtIndex bs).byteAt (s.base + j) = bs[j]? := by
    intro j hj hm
    rw [State.byteAt_storeAtIndex, if_pos (by omega), Nat.add_sub_cancel_left]
  have hkept : ∀ a, ¬ (s.base ≤ a ∧ a < s.base + bs.length) → (s.storeAtIndex bs).byteAt a = s.byteAt a := by
    intro a ha
    rw [State.byteAt_storeAtIndex, if_neg (by omega)]
  refine ⟨_, storeBytes_conclude s bs w, ?_⟩
  split
  · next hfit => exact ⟨hstored, hkept, fun _ => s.storeAtIndex_eq bs, fun h => absurd hfit (by omega)⟩
  · next hout =>
    exact ⟨hstored, hkept, fun h => absurd h hout, fun _ => congrArg (State.raise · _) (s.storeAtIndex_eq bs)⟩

/-! ## What FX33 and FX55 store -/

theorem bcdDigits_toNat (b : Byte) {j : Nat} (hj : j < 3) :
    (bcdDigits b)[j]?.map BitVec.toNat = some (decimalDigit b.toNat j) := by
  have := b.isLt
  have hlt : ∀ d, d < 256 → (BitVec.ofNat 8 d).toNat = d := fun d hd => by rw [BitVec.toNat_ofNat]; omega
  interval_cases j
  · exact congrArg some (hlt _ (by omega))
  · exact congrArg some (hlt _ (by omega))
  · exact congrArg some (hlt _ (by omega))

@[simp] theorem State.regsUpTo_length (s : State) (x : RegIdx) : (s.regsUpTo x).length = x.toNat + 1 := by
  have := x.isLt
  simp only [State.regsUpTo, List.length_take, Vector.length_toList]
  omega

theorem State.regsUpTo_getElem? (s : State) {x k : RegIdx} (h : k.toNat ≤ x.toNat) :
    (s.regsUpTo x)[k.toNat]? = some (s.v k) := by
  rw [State.regsUpTo, List.getElem?_take_of_lt (by omega), Vector.getElem?_toList, Vector.getElem?_eq_getElem k.isLt]
  rfl

/-! ## FX65 -/

/-- FX65: the registers with a byte in memory are loaded, and the first without fails (R225, R150). -/
theorem exec_ldLoad (x : RegIdx) (s : State) :
    ∃ u : State, u = { s with regs := u.regs, pc := s.pc + 2 } ∧
      (∀ k : RegIdx, u.v k =
        if k.toNat ≤ x.toNat ∧ s.base + k.toNat < s.cfg.memSize then Memory.read s.cfg.font s.mem (s.base + k.toNat)
        else s.v k) ∧
      exec (.ldLoad x) s = .next (if s.base + x.toNat < s.cfg.memSize then u
        else u.raise (outOfBoundsRecord s.pc (some (encode (.ldLoad x))) .memRead (max s.base s.cfg.memSize))) := by
  have hx := x.isLt
  obtain ⟨u, hu, hv, hr⟩ := loadRegs_spec (x.toNat + 1) 0 s.base s.advance (by omega)
  refine ⟨u, hu, fun k => ?_, ?_⟩
  · rw [hv k]
    by_cases hk : k.toNat ≤ x.toNat ∧ s.base + k.toNat < s.cfg.memSize
    · rw [if_pos hk, if_pos (by simp only [State.advance_cfg]; omega)]; rfl
    · rw [if_neg hk, if_neg (by simp only [State.advance_cfg]; omega)]; rfl
  · rw [exec, execLdLoad, hr, State.advance_cfg, show s.base + (s.cfg.memSize - s.base) = max s.base s.cfg.memSize by omega]
    by_cases h : s.base + x.toNat < s.cfg.memSize
    · rw [if_pos h, if_pos (by omega)]; rfl
    · rw [if_neg h, if_neg (by omega)]; rfl

end Sys2Proof.Machine

namespace Sys2Proof.Proofs

open Sys2Proof.Machine Sys2Proof.Claims

/-- Settles O50: FX33 stores the digits at `I`. -/
theorem bcdStoresThreeDigits : Obligations.BcdStoresThreeDigits := by
  intro x s
  obtain ⟨t, ht, h⟩ := exists_storesAtIndex (bcdDigits (s.v x)) (encode (.ldB x)) s
  have hlen : (bcdDigits (s.v x)).length = 3 := rfl
  refine ⟨t, ht, fun j hj hm => ?_, h.kept, fun hm => h.completes (by omega), fun hm => h.raises (by omega)⟩
  rw [h.stored j hj hm, bcdDigits_toNat (s.v x) hj]

/-- Settles O51: FX55 stores the registers up to `x[X]` at `I`. -/
theorem registerStoreCopiesUpToX : Obligations.RegisterStoreCopiesUpToX := by
  intro x s
  obtain ⟨t, ht, h⟩ := exists_storesAtIndex (s.regsUpTo x) (encode (.ldStore x)) s
  have hlen := s.regsUpTo_length x
  refine ⟨t, ht, fun k hk hm => ?_, fun a ha => h.kept a (by omega), fun hm => h.completes (by omega),
    fun hm => h.raises (by omega)⟩
  rw [h.stored k.toNat (by omega) hm, s.regsUpTo_getElem? hk]

/-- Settles O52: FX65 loads the registers that have a byte in memory, and raises at the first that has none. -/
theorem registerLoadCopiesUpToX : Obligations.RegisterLoadCopiesUpToX := by
  intro x s
  obtain ⟨u, hu, hv, he⟩ := exec_ldLoad x s
  have hloaded : ∀ k : RegIdx, k.toNat ≤ x.toNat → s.base + k.toNat < s.cfg.memSize →
      s.byteAt (s.base + k.toNat) = some (u.v k) := by
    intro k hk hm
    rw [hv, if_pos ⟨hk, hm⟩, State.byteAt_eq, if_pos hm]
  have hkept : ∀ k : RegIdx, x.toNat < k.toNat ∨ s.cfg.memSize ≤ s.base + k.toNat → u.v k = s.v k := by
    intro k hk
    rw [hv, if_neg (by omega)]
  have hbyte : ∀ a, u.byteAt a = s.byteAt a := by
    intro a
    rw [hu]
    rfl
  refine ⟨_, he, ?_⟩
  split
  · next hm => exact ⟨hloaded, hkept, hbyte, fun _ => hu, fun h => absurd hm (by omega)⟩
  · next hm => exact ⟨hloaded, hkept, hbyte, fun h => absurd h hm, fun _ => congrArg (State.raise · _) hu⟩

end Sys2Proof.Proofs
end

section
/-! PROOFS. DXYN with and without all its sprite bytes in memory (spec/44_display.md R241, 40_execute_cycle.md R150): a sprite
that runs out of memory is drawn as the shorter sprite of the rows before the first byte outside. -/

namespace Sys2Proof.Machine

open Sys2Proof.Claims

/-! ## The rows that have a byte in memory -/

/-- How many rows of a sprite that runs out of memory have a byte in it: fewer than the sprite's height, so 4 bits hold it. -/
def State.rowsInMemory (s : State) : BitVec 4 := BitVec.ofNat 4 (s.cfg.memSize - s.base)

section
variable {s : State} {n : BitVec 4} (h : ¬ SpriteInMemory s n)
include h

theorem rowsInMemory_toNat : s.rowsInMemory.toNat = s.cfg.memSize - s.base := by
  rw [spriteInMemory_iff] at h
  have := n.isLt
  rw [State.rowsInMemory, BitVec.toNat_ofNat]
  omega

theorem rowsInMemory_lt : s.rowsInMemory.toNat < n.toNat := by
  have := rowsInMemory_toNat h
  rw [spriteInMemory_iff] at h
  omega

theorem spriteInMemory_rowsInMemory : SpriteInMemory s s.rowsInMemory :=
  (spriteInMemory_iff s _).2 (rowsInMemory_toNat h).le

theorem lt_rowsInMemory_iff (r : Nat) : r < s.rowsInMemory.toNat ↔ r < n.toNat ∧ s.base + r < s.cfg.memSize := by
  have := rowsInMemory_lt h
  have := rowsInMemory_toNat h
  omega

/-- The bits a sprite that runs out of memory applies are those of its rows in memory. -/
theorem drawnBits_rowsInMemory (x y : RegIdx) : drawnBits s x y s.rowsInMemory = drawnBits s x y n := by
  have hlt := rowsInMemory_lt h
  have heq := rowsInMemory_toNat h
  rw [drawnBits_eq, drawnBits_eq, show min s.rowsInMemory.toNat (s.cfg.memSize - s.base) =
    min n.toNat (s.cfg.memSize - s.base) by omega]

end

/-! ## The state after a DXYN that runs out of memory -/

/-- The state after a DXYN with word `w` whose sprite runs out of memory: VF is 0, the rows in memory are drawn (R241, R150). -/
def State.haltDraw (s : State) (x y : RegIdx) (w : Word) : State :=
  ((s.advance.setV vf 0).setDisp (s.afterDraw x y s.rowsInMemory).disp).raise
    (outOfBoundsRecord s.pc (some w) .memRead (max s.base s.cfg.memSize))

theorem exec_drw_of_not_inMemory {s : State} {n : BitVec 4} (h : ¬ SpriteInMemory s n) (x y : RegIdx) :
    exec (.drw x y n) s = .next (s.haltDraw x y (encode (.drw x y n))) := by
  have hrows := (drawRows_eq n.toNat 0 (s.v x).toNat (s.v y).toNat false (s.advance.setV vf 0)).trans
    (if_neg ((spriteInMemory_iff s n).not.1 h))
  have hout : s.base + (s.cfg.memSize - s.base) = max s.base s.cfg.memSize := by omega
  rw [State.haltDraw, ← hout, State.afterDraw, State.drawSprite, rowsInMemory_toNat h]
  simp only [exec, execDrw, hrows]
  rfl

section
variable (s : State) (x y : RegIdx) (w : Word)

theorem State.haltDraw_eq :
    s.haltDraw x y w = { s with
      regs := (s.haltDraw x y w).regs, disp := (s.haltDraw x y w).disp, pc := s.pc + 2, mode := .halted,
      err := some (outOfBoundsRecord s.pc (some w) .memRead (max s.base s.cfg.memSize)) } := rfl

@[simp] theorem State.haltDraw_byteAt (a : Nat) : (s.haltDraw x y w).byteAt a = s.byteAt a := rfl

theorem State.haltDraw_v_ne {k : RegIdx} (hk : k ≠ vf) : (s.haltDraw x y w).v k = s.v k :=
  State.v_setV_ne s.advance _ _ _ hk

@[simp] theorem State.haltDraw_v_vf : (s.haltDraw x y w).v vf = 0 := State.v_setV_same s.advance _ _

@[simp] theorem State.haltDraw_disp_length : (s.haltDraw x y w).disp.length = s.disp.length :=
  s.afterDraw_disp_length x y _

theorem State.haltDraw_pixel (p q : Nat) : (s.haltDraw x y w).pixel p q = (s.afterDraw x y s.rowsInMemory).pixel p q := rfl

end

/-! ## VF and the pixels of a completed DXYN -/

theorem flagByte_eq_zero_or_one (f : Bool) : flagByte f = 0 ∨ flagByte f = 1 := by
  cases f
  · exact .inl rfl
  · exact .inr rfl

/-- A sprite of no rows draws nothing and collides with nothing. -/
theorem State.drawSprite_zero (s : State) (x y : RegIdx) : s.drawSprite x y 0 = (s.disp, false) := rfl

end Sys2Proof.Machine

namespace Sys2Proof.Proofs

open Sys2Proof.Machine Sys2Proof.Claims

/-- Settles O56: a sprite in memory leaves `afterDraw`; one that runs out of memory leaves `haltDraw`, whose pixels are those of
the completed drawing of its rows in memory. -/
theorem drawCompletesOrHalts : Obligations.DrawCompletesOrHalts := by
  intro x y n s
  by_cases hm : SpriteInMemory s n
  · refine ⟨s.afterDraw x y n, exec_drw_eq hm x y, s.afterDraw_byteAt x y n, fun k hk => s.afterDraw_v_ne x y n hk,
      s.afterDraw_disp_length x y n, ?_, ?_, fun _ => s.afterDraw_eq x y n, fun hn hout => ?_⟩
    · rintro rfl
      exact ⟨State.afterDraw_v_vf_of_not_collided (by rw [s.drawSprite_zero]; exact Bool.false_ne_true),
        congrArg Prod.fst (s.drawSprite_zero x y)⟩
    · rw [State.afterDraw_v_vf]
      exact flagByte_eq_zero_or_one _
    · exact absurd (hm.resolve_left hn) (by omega)
  · have hn : n ≠ 0 := fun h => hm (.inl h)
    have hfit := spriteInMemory_rowsInMemory hm
    refine ⟨s.haltDraw x y _, exec_drw_of_not_inMemory hm x y, s.haltDraw_byteAt x y _,
      fun k hk => s.haltDraw_v_ne x y _ hk, s.haltDraw_disp_length x y _, fun h => absurd h hn,
      .inl (s.haltDraw_v_vf x y _), fun h => absurd h hm,
      fun _ _ => ⟨⟨s.haltDraw_v_vf x y _, s.haltDraw_eq x y _⟩, ?_, ?_⟩⟩
    · intro hd p q _ hq
      rw [State.haltDraw_pixel, afterDraw_pixel_eq_pixelAfter hd hfit x y hq, drawnBits_rowsInMemory hm]
    · intro hd hw hh
      have hh' : s.rowsInMemory.toNat ≤ s.cfg.height := (rowsInMemory_lt hm).le.trans hh
      constructor
      · intro r c hr hc hmem
        exact afterDraw_pixel_of_covered hd hfit x y hw hh' ((lt_rowsInMemory_iff hm r).2 ⟨hr, hmem⟩) hc
      · intro p q _ hq hunc
        refine afterDraw_pixel_of_uncovered hd hfit x y hw hh' hq fun r c hr hc => ?_
        obtain ⟨hrn, hmem⟩ := (lt_rowsInMemory_iff hm r).1 hr
        exact hunc r c hrn hc hmem

end Sys2Proof.Proofs
end

section
/-! PROOFS. The decoder and the encoder against each other (spec/30_encoding.md R110 to R126), and the step over a word that is
no instruction (spec/40_execute_cycle.md R145). -/

namespace Sys2Proof

/-! ## Decoding an encoded instruction -/

/-- The decoder undoes the encoder: it finds the family, the sub-function and each operand where the format packs them. -/
@[simp] theorem decodeWord_encode (i : Instr) : decodeWord (encode i) = some i := by
  cases i
  case cls | ret => rfl
  case jp | call | ldI | jpV0 | seByte | sneByte | ldByte | addByte | rnd | seReg | sneReg | drw =>
    simp [encode, decodeWord]
  case ldReg | orReg | andReg | xorReg | addReg | subReg | shr | subn | shl =>
    simp [encode, decodeWord, decodeFamily8]
  case skp | sknp => simp [encode, decodeWord, decodeFamilyE]
  case ldFromDT | ldK | ldDT | ldST | addI | ldF | ldB | ldStore | ldLoad =>
    simp [encode, decodeWord, decodeFamilyF]

/-! ## Where the decoder answers Unknown -/

theorem decodeFamily0_eq_none_iff (w : Word) : decodeFamily0 w = none ↔ w ≠ 0x00E0 ∧ w ≠ 0x00EE := by
  simp [decodeFamily0, ite_eq_iff]

theorem decodeFamily8_eq_none_iff (x y : RegIdx) (n : BitVec 4) :
    decodeFamily8 x y n = none ↔ n ∈ [0x8, 0x9, 0xA, 0xB, 0xC, 0xD, 0xF] := by
  have complement : ∀ n : BitVec 4, n ∉ [0x0, 0x1, 0x2, 0x3, 0x4, 0x5, 0x6, 0x7, 0xE] ↔
      n ∈ [0x8, 0x9, 0xA, 0xB, 0xC, 0xD, 0xF] := by decide
  rw [← complement]
  simp [decodeFamily8, ite_eq_iff]

theorem decodeFamilyE_eq_none_iff (x : RegIdx) (nn : Byte) : decodeFamilyE x nn = none ↔ nn ∉ [0x9E, 0xA1] := by
  simp [decodeFamilyE, ite_eq_iff]

theorem decodeFamilyF_eq_none_iff (x : RegIdx) (nn : Byte) :
    decodeFamilyF x nn = none ↔ nn ∉ [0x07, 0x0A, 0x15, 0x18, 0x1E, 0x29, 0x33, 0x55, 0x65] := by
  simp [decodeFamilyF, ite_eq_iff]

/-! ## Encoding a decoded instruction -/

section
variable {w : Word} {f n : BitVec 4} {nn : Byte} {i : Instr}

theorem packNNN_of_fieldF (hf : fieldF w = f) : packNNN f (fieldNNN w) = w := hf ▸ packNNN_fields w

theorem packXNN_of_fields (hf : fieldF w = f) (hnn : fieldNN w = nn) : packXNN f (fieldX w) nn = w :=
  hf ▸ hnn ▸ packXNN_fields w

theorem packXYN_of_fields (hf : fieldF w = f) (hn : fieldN w = n) : packXYN f (fieldX w) (fieldY w) n = w :=
  hf ▸ hn ▸ packXYN_fields w

/-- Clearing bits 7 to 4 leaves every field but `Y`. -/
theorem packXYN_zeroY_of_fields (hf : fieldF w = f) (hn : fieldN w = n) :
    packXYN f (fieldX w) 0#4 n = w &&& 0xFF0F := by
  calc packXYN f (fieldX w) 0#4 n
      = packXYN f (fieldX w) (fieldY w) n &&& packXYN (.allOnes 4) (.allOnes 4) 0#4 (.allOnes 4) := by
        simp only [packXYN_and, BitVec.and_allOnes, BitVec.and_zero]
    _ = w &&& 0xFF0F := by
        rw [packXYN_of_fields hf hn]
        rfl

theorem encode_of_decodeFamily0 (h : decodeFamily0 w = some i) : encode i = w := by
  simp only [decodeFamily0] at h
  split_ifs at h with hw hw <;> cases h <;> exact hw.symm

/-- SHR and SHL are the two sub-functions of family 8 that hold no `Y` (R113, R126). -/
theorem encode_of_decodeFamily8 (hf : fieldF w = 0x8)
    (h : decodeFamily8 (fieldX w) (fieldY w) (fieldN w) = some i) :
    encode i = w ∨ ((∃ x, i = .shr x ∨ i = .shl x) ∧ encode i = w &&& 0xFF0F) := by
  simp only [decodeFamily8] at h
  split_ifs at h with h0 h1 h2 h3 h4 h5 h6 h7 hE <;> cases h
  · exact .inl (packXYN_of_fields hf h0)
  · exact .inl (packXYN_of_fields hf h1)
  · exact .inl (packXYN_of_fields hf h2)
  · exact .inl (packXYN_of_fields hf h3)
  · exact .inl (packXYN_of_fields hf h4)
  · exact .inl (packXYN_of_fields hf h5)
  · exact .inr ⟨⟨_, .inl rfl⟩, packXYN_zeroY_of_fields hf h6⟩
  · exact .inl (packXYN_of_fields hf h7)
  · exact .inr ⟨⟨_, .inr rfl⟩, packXYN_zeroY_of_fields hf hE⟩

theorem encode_of_decodeFamilyE (hf : fieldF w = 0xE) (h : decodeFamilyE (fieldX w) (fieldNN w) = some i) :
    encode i = w := by
  simp only [decodeFamilyE] at h
  split_ifs at h <;> cases h <;> exact packXNN_of_fields hf ‹_›

theorem encode_of_decodeFamilyF (hf : fieldF w = 0xF) (h : decodeFamilyF (fieldX w) (fieldNN w) = some i) :
    encode i = w := by
  simp only [decodeFamilyF] at h
  split_ifs at h <;> cases h <;> exact packXNN_of_fields hf ‹_›

end

/-! ## The decoder, family by family -/

/-- In ten families every word is the encoding of an instruction; the other six hold illegal words (R115 to R120). -/
theorem decodeWord_cases (w : Word) :
    (fieldF w ∉ [0x0, 0x5, 0x8, 0x9, 0xE, 0xF] ∧ ∃ i, decodeWord w = some i ∧ encode i = w) ∨
    (fieldF w = 0x0 ∧ decodeWord w = decodeFamily0 w) ∨
    (fieldF w = 0x5 ∧ decodeWord w = if fieldN w = 0 then some (.seReg (fieldX w) (fieldY w)) else none) ∨
    (fieldF w = 0x8 ∧ decodeWord w = decodeFamily8 (fieldX w) (fieldY w) (fieldN w)) ∨
    (fieldF w = 0x9 ∧ decodeWord w = if fieldN w = 0 then some (.sneReg (fieldX w) (fieldY w)) else none) ∨
    (fieldF w = 0xE ∧ decodeWord w = decodeFamilyE (fieldX w) (fieldNN w)) ∨
    (fieldF w = 0xF ∧ decodeWord w = decodeFamilyF (fieldX w) (fieldNN w)) := by
  have families : ∀ f : BitVec 4, f = 0x1 ∨ f = 0x2 ∨ f = 0x3 ∨ f = 0x4 ∨ f = 0x6 ∨ f = 0x7 ∨ f = 0xA ∨ f = 0xB ∨
      f = 0xC ∨ f = 0xD ∨ f = 0x0 ∨ f = 0x5 ∨ f = 0x8 ∨ f = 0x9 ∨ f = 0xE ∨ f = 0xF := by decide
  rcases families (fieldF w) with h | h | h | h | h | h | h | h | h | h | h | h | h | h | h | h <;>
    simp only [decodeWord, h]
  · exact .inl ⟨by decide, _, rfl, packNNN_of_fieldF h⟩
  · exact .inl ⟨by decide, _, rfl, packNNN_of_fieldF h⟩
  · exact .inl ⟨by decide, _, rfl, packXNN_of_fields h rfl⟩
  · exact .inl ⟨by decide, _, rfl, packXNN_of_fields h rfl⟩
  · exact .inl ⟨by decide, _, rfl, packXNN_of_fields h rfl⟩
  · exact .inl ⟨by decide, _, rfl, packXNN_of_fields h rfl⟩
  · exact .inl ⟨by decide, _, rfl, packNNN_of_fieldF h⟩
  · exact .inl ⟨by decide, _, rfl, packNNN_of_fieldF h⟩
  · exact .inl ⟨by decide, _, rfl, packXNN_of_fields h rfl⟩
  · exact .inl ⟨by decide, _, rfl, packXYN_of_fields h rfl⟩
  all_goals simp

end Sys2Proof

namespace Sys2Proof.Proofs

open Sys2Proof.Machine Sys2Proof.Claims

/-- Settles O1: the two bytes are put together to the word again, and the decoder undoes the encoder on it. -/
theorem decodingAnEncodedInstructionGivesItBack : Obligations.DecodingAnEncodedInstructionGivesItBack := by
  intro i rest
  simp [encodeBytes, decodeBytes, bigEndian_bytes, decodeWord_encode]

/-- Settles O2, by the family: in each format the fields that were read are packed into the word they were read from. -/
theorem legalWordIsItsInstructionsEncoding : Obligations.LegalWordIsItsInstructionsEncoding := by
  intro w i hd
  rcases decodeWord_cases w with ⟨-, j, h, hj⟩ | ⟨hf, h⟩ | ⟨hf, h⟩ | ⟨hf, h⟩ | ⟨hf, h⟩ | ⟨hf, h⟩ | ⟨hf, h⟩ <;> rw [h] at hd
  · cases hd
    exact .inl hj
  · exact .inl (encode_of_decodeFamily0 hd)
  · split_ifs at hd with hn
    cases hd
    exact .inl (packXYN_of_fields hf hn)
  · exact encode_of_decodeFamily8 hf hd
  · split_ifs at hd with hn
    cases hd
    exact .inl (packXYN_of_fields hf hn)
  · exact .inl (encode_of_decodeFamilyE hf hd)
  · exact .inl (encode_of_decodeFamilyF hf hd)

/-- Settles O3, by the family: each of the six that hold illegal words answers Unknown on exactly those its rule names. -/
theorem unknownWordsAreExactlyTheIllegalOnes : Obligations.UnknownWordsAreExactlyTheIllegalOnes := by
  intro w
  rcases decodeWord_cases w with ⟨hf, i, h, -⟩ | ⟨hf, h⟩ | ⟨hf, h⟩ | ⟨hf, h⟩ | ⟨hf, h⟩ | ⟨hf, h⟩ | ⟨hf, h⟩
  · have legal : ¬ IllegalWord w := by simp_all [IllegalWord]
    simp [h, legal]
  · simp [h, hf, IllegalWord, decodeFamily0_eq_none_iff]
  · simp [h, hf, IllegalWord]
  · rw [h, decodeFamily8_eq_none_iff]
    simp [hf, IllegalWord]
  · simp [h, hf, IllegalWord]
  · simp [h, hf, IllegalWord, decodeFamilyE_eq_none_iff]
  · simp [h, hf, IllegalWord, decodeFamilyF_eq_none_iff]

/-- Settles O8: the bytes at `pc` are the word there, and a running step over it fails its decode. -/
theorem unknownWordHalts : Obligations.UnknownWordHalts := by
  intro s hi lo hm hhi hlo hd
  rw [step_of_decodeWord_none ((s.wordAtPc_iff _).2 ⟨hi, lo, hhi, hlo, rfl⟩) hd hm]
  rfl

/-- Settles O4: the decoder runs on the fifteen words. -/
theorem sampleWordsDecode : Obligations.SampleWordsDecode := by
  unfold Obligations.SampleWordsDecode
  decide

end Sys2Proof.Proofs
end

section
/-! PROOFS. The step and the session's commands: a step by the bytes at `pc`, the one stuck state, the failures a step can raise,
and the legal session (spec/40_execute_cycle.md R141 to R151, 70_reset_and_hazards.md R342). -/

namespace Sys2Proof.Machine

open Sys2Proof.Claims

/-! ## The state through the host's commands other than a step -/

theorem State.setKey_eq (s : State) (k : Int) (down : Bool) :
    s.setKey k down = { s with keys := (s.setKey k down).keys } := by
  unfold State.setKey
  split <;> rfl

theorem State.keyUp_eq (s : State) (k : Int) :
    s.keyUp k = { s with keys := (s.keyUp k).keys, latch := (s.keyUp k).latch } := by
  unfold State.keyUp
  split
  · rw [s.setKey_eq]; rfl
  · rfl

theorem State.tickTimers_legal (s : State) : s.tickTimers.legal = s.legal :=
  State.legal_congr rfl rfl rfl rfl rfl rfl rfl rfl

theorem State.keyDown_legal (s : State) (k : Int) : (s.keyDown k).legal = s.legal := by
  rw [State.keyDown, s.setKey_eq]
  exact State.legal_congr rfl rfl rfl rfl rfl rfl rfl rfl

theorem State.keyUp_legal (s : State) (k : Int) : (s.keyUp k).legal = s.legal := by
  rw [s.keyUp_eq]
  exact State.legal_congr rfl rfl rfl rfl rfl rfl rfl rfl

theorem State.resetCommand_legal {s : State} (h : s.cfg.wellFormed = true) : s.resetCommand.legal = true :=
  State.ofReset_legal h s.draws

/-- A raised failure leaves a legal state: the record and HALTED come together (40_execute_cycle.md R150). -/
theorem State.raise_legal {s : State} (h : s.legal = true) (e : ErrRecord) : (s.raise e).legal = true := by
  obtain ⟨hcfg, hstack, hdisp, hmem, -, -⟩ := s.legal_iff.1 h
  exact (s.raise e).legal_iff.2 ⟨hcfg, hstack, hdisp, hmem, rfl, rfl⟩

theorem State.waitOk_of_not_awaitingKey {s : State} (hm : s.mode ≠ .awaitingKey) : s.waitOk = true :=
  s.waitOk_iff.2 fun h => absurd h hm

/-- A load keeps a state legal where the machine does not wait; over a waiting machine it could overwrite the FX0A. -/
theorem State.load_legal {s : State} (h : s.legal = true) (hm : s.mode ≠ .awaitingKey) (bytes : List Byte) (o : Nat) :
    (s.load bytes o).legal = true := by
  by_cases hfit : o + bytes.length ≤ s.cfg.memSize
  · obtain ⟨hcfg, hstack, hdisp, hmem, herr, -⟩ := s.legal_iff.1 h
    have hmem' : (s.pokeBytes o bytes).memOk = true := s.pokeBytes_memOk o bytes hmem (by omega)
    rw [State.load_of_fits hfit]
    refine (State.legal_iff _).2 ⟨?_, ?_, ?_, hmem', ?_, State.waitOk_of_not_awaitingKey (by rwa [s.pokeBytes_mode])⟩
    all_goals rwa [s.pokeBytes_eq]
  · rw [State.load_of_too_large (by omega)]
    exact State.raise_legal h _

/-! ## The legal session -/

theorem Session.cfg_wellFormed_of_legal {z : Session} (h : z.legal = true) : z.core.cfg.wellFormed = true := by
  by_cases hp : z.phase = .beforeReset
  · simpa [Session.legal, hp] using h
  · exact (z.core.legal_iff.1 ((Session.legal_iff_of_reset hp).1 h).1).1

/-- A session past the first reset stays legal under a new state, in the same phase, that is legal and has the same mode. -/
theorem Session.legal_of_mode_eq {z : Session} (h : z.legal = true) (hp : z.phase ≠ .beforeReset) {t : State}
    (ht : t.legal = z.core.legal) (hm : t.mode = z.core.mode) : (Session.mk z.phase t).legal = true := by
  obtain ⟨hlegal, hwindow⟩ := (Session.legal_iff_of_reset hp).1 h
  exact (Session.legal_iff_of_reset (z := ⟨z.phase, t⟩) hp).2 ⟨ht.trans hlegal, hm ▸ hwindow⟩

/-- No load makes the machine wait. -/
theorem State.load_not_awaitingKey {s : State} (hm : s.mode ≠ .awaitingKey) (bytes : List Byte) (o : Nat) :
    (s.load bytes o).mode ≠ .awaitingKey := by
  rcases s.load_mode bytes o with h | ⟨h, -⟩ <;> rw [h]
  · exact hm
  · decide

/-! ## The one stuck state -/

theorem step_ne_refused (s : State) (q : Refusal) : step s ≠ .refused q := by
  rcases step_cases s with ⟨-, h⟩ | ⟨-, -, h⟩ | ⟨w, -, -, -, h⟩ | ⟨w, -, -, -, h⟩ | ⟨w, i, -, -, -, -, h⟩ <;> rw [h]
  · nofun
  · nofun
  · nofun
  · nofun
  · obtain ⟨t, ht⟩ := exec_next i s
    rw [ht]
    nofun

/-- A step faults exactly where a machine that waits finds another word than FX0A at `pc` (R149, D13). -/
theorem step_fault_iff (s : State) : (∃ f, step s = .fault f) ↔
    s.mode = .awaitingKey ∧ ∃ w, s.wordAtPc = some w ∧ ∀ x, decodeWord w ≠ some (.ldK x) := by
  rcases step_cases s with ⟨hm, h⟩ | ⟨-, hw, h⟩ | ⟨w, hm, -, -, h⟩ | ⟨w, hm, hw, hk, h⟩ | ⟨w, i, hw, hi, -, hm, h⟩ <;>
    rw [h]
  · simp [hm]
  · simp [hw]
  · simp [hm]
  · exact ⟨fun _ => ⟨hm, w, hw, hk⟩, fun _ => ⟨_, rfl⟩⟩
  · obtain ⟨t, ht⟩ := exec_next i s
    rcases hm with hm | ⟨-, x, rfl⟩
    · simp [ht, hm]
    · simp [ht, hw, hi]

/-! ## The failures an instruction raises -/

/-- The spaces an instruction may name in its record: every one but the fetch's (R151). -/
def instrSpaces : List Space := [.memRead, .memWrite, .stackOverflow, .stackUnderflow, .key]

/-- An instruction at `s` with word `w` kept the mode, or it raised `OutOfBounds` of a space that is not the fetch's. -/
def KeepsModeOrOutOfBounds (w : Word) (s t : State) : Prop :=
  t.mode = s.mode ∨ ∃ sp ∈ instrSpaces, ∃ ix, t.err = some (outOfBoundsRecord s.pc (some w) sp ix)

section
variable {s t : State} {w : Word}

theorem storeBytes_keepsModeOrOutOfBounds {bs : List Byte}
    (h : (storeBytes bs s.base s.advance).conclude s.pc w (fun _ s => s) = .next t) : KeepsModeOrOutOfBounds w s t := by
  rw [storeBytes_conclude] at h
  split at h <;> cases h
  · exact .inl ((congrArg State.mode (s.storeAtIndex_eq bs)).trans rfl)
  · exact .inr ⟨.memWrite, by decide, _, rfl⟩

theorem keyIsDown_keepsModeOrOutOfBounds {k : Byte} {taken : Bool → Bool}
    (h : (keyIsDown k s.advance).conclude s.pc w (fun down u => keySkip s.pc (taken down) u) = .next t) :
    KeepsModeOrOutOfBounds w s t := by
  rcases keyIsDown_cases k s.advance with ⟨_, e⟩ | ⟨-, e⟩ <;> rw [e] at h <;> cases h
  · exact .inl ((congrArg State.mode (keySkip_eq s.pc _ s.advance)).trans rfl)
  · exact .inr ⟨.key, by decide, _, rfl⟩

end

theorem exec_keepsModeOrOutOfBounds {i : Instr} {s t : State} (h : exec i s = .next t) (hi : mayRaise i = true) :
    KeepsModeOrOutOfBounds (encode i) s t := by
  cases i <;> simp only [mayRaise, Bool.false_eq_true] at hi
  case ret =>
    by_cases hsp : s.sp = 0
    · rw [exec_ret_of_empty hsp] at h; cases h
      exact .inr ⟨.stackUnderflow, by decide, _, rfl⟩
    · rw [exec_ret_of_nonempty hsp] at h; cases h
      exact .inl rfl
  case call nnn =>
    by_cases hsp : s.sp = s.cfg.stackCapacity
    · rw [exec_call_of_full hsp] at h; cases h
      exact .inr ⟨.stackOverflow, by decide, _, rfl⟩
    · rw [exec_call_of_room hsp] at h; cases h
      exact .inl rfl
  case drw x y n =>
    by_cases hm : SpriteInMemory s n
    · rw [exec_drw_eq hm] at h; cases h
      exact .inl rfl
    · rw [exec_drw_of_not_inMemory hm] at h; cases h
      exact .inr ⟨.memRead, by decide, _, rfl⟩
  case skp x => exact keyIsDown_keepsModeOrOutOfBounds (taken := id) h
  case sknp x => exact keyIsDown_keepsModeOrOutOfBounds (taken := not) h
  case ldB x => exact storeBytes_keepsModeOrOutOfBounds h
  case ldStore x => exact storeBytes_keepsModeOrOutOfBounds h
  case ldLoad x =>
    obtain ⟨u, hu, -, he⟩ := exec_ldLoad x s
    rw [he] at h
    split at h <;> cases h
    · exact .inl ((congrArg State.mode hu).trans rfl)
    · exact .inr ⟨.memRead, by decide, _, rfl⟩

/-- An instruction outside R151's list completes in every state that is not HALTED: its shape names no error, and only the
key wait names the mode. -/
theorem exec_completes {i : Instr} {s t : State} (h : exec i s = .next t) (hi : mayRaise i = false)
    (hm : s.mode ≠ .halted) : t.mode ≠ .halted ∧ t.err = s.err := by
  have hs := exec_shape i s t h
  cases i <;> simp only [mayRaise, Bool.true_eq_false] at hi
  case ldK x =>
    rcases hmode : s.mode with _ | _ | _ <;> simp only [exec, execLdK, hmode] at h
    · cases h
      exact ⟨nofun, rfl⟩
    · rcases hl : s.latch with _ | k <;> simp only [hl] at h <;> cases h
      · exact ⟨hm, rfl⟩
      · exact ⟨nofun, rfl⟩
    · exact absurd hmode hm
  case ldByte | addByte | ldReg | orReg | andReg | xorReg | ldFromDT | addReg | subReg | shr | subn | shl | rnd =>
    rw [hs.1]
    exact ⟨hm, rfl⟩
  all_goals
    simp only [ExecShape] at hs
    rw [hs]
    exact ⟨hm, rfl⟩

end Sys2Proof.Machine

namespace Sys2Proof.Proofs

open Sys2Proof.Machine Sys2Proof.Claims

/-- Settles O16: reset needs the configuration alone, a step keeps the state legal, a load acts only in the boot window, where
the machine does not wait, and the other commands change nothing legality speaks of. -/
theorem everyCommandKeepsTheSessionLegal : Obligations.EveryCommandKeepsTheSessionLegal := by
  intro c z z' hz h
  obtain ⟨hreset, hshape⟩ := Session.command_shape h
  by_cases hc : c = .reset
  · subst hc
    subst hshape
    exact (Session.legal_iff_of_reset (by simp)).2
      ⟨State.resetCommand_legal (Session.cfg_wellFormed_of_legal hz), fun _ => nofun⟩
  have hp : z.phase ≠ .beforeReset := fun hp => hc (hreset hp)
  obtain ⟨hlegal, hwindow⟩ := (Session.legal_iff_of_reset hp).1 hz
  cases c with
  | reset => exact absurd rfl hc
  | load bytes o =>
    obtain ⟨hboot, rfl⟩ := hshape
    have hm := hwindow hboot
    exact (Session.legal_iff_of_reset (by simp)).2 ⟨State.load_legal hlegal hm bytes o,
      fun _ => State.load_not_awaitingKey hm bytes o⟩
  | step =>
    obtain ⟨t, ht, rfl⟩ := hshape
    exact (Session.legal_iff_of_reset (by simp)).2 ⟨step_legal ht hlegal, nofun⟩
  | tickTimers => subst hshape; exact Session.legal_of_mode_eq hz hp z.core.tickTimers_legal z.core.tickTimers_mode
  | keyDown k => subst hshape; exact Session.legal_of_mode_eq hz hp (z.core.keyDown_legal k) (z.core.keyDown_mode k)
  | keyUp k => subst hshape; exact Session.legal_of_mode_eq hz hp (z.core.keyUp_legal k) (z.core.keyUp_mode k)
  | snapshot => subst hshape; exact hz

/-- Settles O9: the step's cases; the word at `pc` is its two bytes. -/
theorem stepIsStuckOnlyOnABrokenKeyWait : Obligations.StepIsStuckOnlyOnABrokenKeyWait := by
  intro s
  refine ⟨step_ne_refused s, (step_fault_iff s).trans (and_congr_right fun _ => ?_)⟩
  simp only [s.wordAtPc_iff, ← not_exists]
  constructor
  · rintro ⟨_, ⟨hi, lo, hhi, hlo, rfl⟩, hk⟩
    exact ⟨hi, lo, hhi, hlo, hk⟩
  · rintro ⟨hi, lo, hhi, hlo, hk⟩
    exact ⟨_, ⟨hi, lo, hhi, hlo, rfl⟩, hk⟩

/-- Settles O11: the one stuck state is not legal, since a legal machine that waits has FX0A at `pc`. -/
theorem legalStateAlwaysSteps : Obligations.LegalStateAlwaysSteps := by
  intro s hs
  exact exists_step_of_legal hs

/-- Settles O30: a failed fetch, a failed decode, or an instruction of R151's list, which names its own space; every other
instruction completes. -/
theorem stepRaisesOnlyTheListedFailures : Obligations.StepRaisesOnlyTheListedFailures := by
  intro s hm
  refine ⟨fun t h ht => ?_, fun i hi => ?_⟩
  · rcases step_shape s t h with ⟨hs, -⟩ | ⟨hw, -, ix, rfl⟩ | ⟨w, -, hw, hd, rfl⟩ | ⟨i, hi, -, he, -⟩
    · exact absurd hs hm
    · exact ⟨_, rfl, .inl ⟨hw, rfl, rfl⟩⟩
    · exact ⟨_, rfl, .inr (.inl ⟨w, hw, hd, rfl⟩)⟩
    · have hraise : mayRaise i = true := by
        by_contra hraise
        exact (exec_completes he (Bool.eq_false_of_not_eq_true hraise) hm).1 ht
      obtain ⟨sp, hsp, ix, herr⟩ :=
        (exec_keepsModeOrOutOfBounds he hraise).resolve_left fun hmode => hm (hmode.symm.trans ht)
      exact ⟨_, herr, .inr (.inr ⟨i, hi, hraise, rfl, sp, hsp, rfl⟩)⟩
  · obtain ⟨t, ht⟩ := exec_next i s
    exact ⟨t, ht, exec_completes ht hi hm⟩

/-- Settles O5: the two bytes are the word at `pc`, so the step executes the instruction there. -/
theorem stepRunsTheDecodedInstruction : Obligations.StepRunsTheDecodedInstruction := by
  intro s hi lo i hhi hlo hd
  have hw : s.wordAtPc = some (bigEndian hi lo) := (s.wordAtPc_iff _).2 ⟨hi, lo, hhi, hlo, rfl⟩
  have hinstr : s.instrAtPc = some i := by rw [State.instrAtPc, hw]; exact hd
  exact ⟨fun hm => step_of_instrAtPc hinstr (.inl hm),
    fun hm hk => step_of_instrAtPc hinstr (.inr ⟨hm, (isKeyWait_iff i).1 hk⟩)⟩

/-- Settles O6: a halted step is the identity, and what it returns is read from `err`. -/
theorem haltedStepReturnsTheStoredError : Obligations.HaltedStepReturnsTheStoredError := by
  intro s hm
  exact ⟨step_of_halted hm, by simp [State.stepResult, hm]⟩

end Sys2Proof.Proofs
end

section
/-! PROOFS. The conditional skips (spec/41_control_flow.md R173 to R176), and a step at a jump to itself (R171,
60_exceptions.md R318). -/

namespace Sys2Proof.Machine

open Sys2Proof.Claims

/-! ## The conditional skips -/

theorem exec_seByte (x : RegIdx) (nn : Byte) (s : State) : exec (.seByte x nn) s = .next (s.skipIf (s.v x == nn)) := rfl

theorem exec_sneByte (x : RegIdx) (nn : Byte) (s : State) : exec (.sneByte x nn) s = .next (s.skipIf (s.v x != nn)) := rfl

theorem exec_seReg (x y : RegIdx) (s : State) : exec (.seReg x y) s = .next (s.skipIf (s.v x == s.v y)) := rfl

theorem exec_sneReg (x y : RegIdx) (s : State) : exec (.sneReg x y) s = .next (s.skipIf (s.v x != s.v y)) := rfl

/-- An instruction that ends in a conditional skip writes `pc` alone, by its condition (R146). -/
theorem exists_next_of_skipIf {i : Instr} {s : State} {taken : Bool} {cond : Prop} [Decidable cond]
    (he : exec i s = .next (s.skipIf taken)) (hcond : taken = true ↔ cond) :
    ∃ t, exec i s = .next t ∧ OnlyPc s t ∧ t.pc = if cond then s.pc + 4 else s.pc + 2 := by
  rw [State.skipIf_eq] at he
  exact ⟨_, he, onlyPc_setPc s _, by simp [hcond]⟩

theorem decodeWord_packXYN_5 (x y : RegIdx) (n : BitVec 4) :
    decodeWord (packXYN 0x5 x y n) = if n = 0 then some (.seReg x y) else none := by
  simp [decodeWord]

theorem decodeWord_packXYN_9 (x y : RegIdx) (n : BitVec 4) :
    decodeWord (packXYN 0x9 x y n) = if n = 0 then some (.sneReg x y) else none := by
  simp [decodeWord]

/-! ## A jump to itself -/

/-- A machine spins exactly when it runs and the instruction at `pc` is a jump to `pc`. -/
theorem State.spinning_iff (s : State) :
    s.spinning = true ↔ s.mode = .running ∧ ∃ nnn, s.instrAtPc = some (.jp nnn) ∧ zextAddr nnn = s.pc := by
  rcases hi : s.instrAtPc with _ | i
  · simp [State.spinning, hi]
  · cases i <;> simp [State.spinning, hi, zextAddr]

/-- Writing `pc` with the value it has changes nothing. -/
theorem State.setPc_self (s : State) : s.setPc s.pc = s := rfl

end Sys2Proof.Machine

namespace Sys2Proof.Proofs

open Sys2Proof.Machine

/-- Settles O40: the comparison with the byte is the condition of the skip. -/
theorem byteSkipsCompareTheRegister : Obligations.ByteSkipsCompareTheRegister := by
  intro x nn s
  exact ⟨decodeWord_encode (.seByte x nn), decodeWord_encode (.sneByte x nn),
    exists_next_of_skipIf (exec_seByte x nn s) beq_iff_eq, exists_next_of_skipIf (exec_sneByte x nn s) bne_iff_ne⟩

/-- Settles O41: the comparison of the registers is the condition of the skip; the decoder asks for a low nibble of 0. -/
theorem registerSkipsCompareTheRegisters : Obligations.RegisterSkipsCompareTheRegisters := by
  intro x y s
  exact ⟨decodeWord_packXYN_5 x y, decodeWord_packXYN_9 x y,
    exists_next_of_skipIf (exec_seReg x y s) beq_iff_eq, exists_next_of_skipIf (exec_sneReg x y s) bne_iff_ne⟩

/-- Settles O15: the step executes the jump, which writes `pc` with the value it has. -/
theorem spinningStepChangesNothing : Obligations.SpinningStepChangesNothing := by
  intro s hspin
  obtain ⟨hm, nnn, hi, hself⟩ := s.spinning_iff.1 hspin
  rw [step_of_instrAtPc hi (.inl hm), exec_jp, hself, State.setPc_self]

end Sys2Proof.Proofs
end

section
/-! PROOFS. Register loads and the ALU: one result register, and for the flag instructions VF beside it (spec/42_alu.md R191 to
R211). -/

namespace Sys2Proof.Machine

open Sys2Proof.Claims

/-! ## The instructions that write one register -/

theorem exec_ldByte (x : RegIdx) (nn : Byte) (s : State) : exec (.ldByte x nn) s = .next (s.advance.setV x nn) := rfl

theorem exec_addByte (x : RegIdx) (nn : Byte) (s : State) :
    exec (.addByte x nn) s = .next (s.advance.setV x (s.v x + nn)) := rfl

theorem exec_ldReg (x y : RegIdx) (s : State) : exec (.ldReg x y) s = .next (s.advance.setV x (s.v y)) := rfl

theorem exec_orReg (x y : RegIdx) (s : State) : exec (.orReg x y) s = .next (s.advance.setV x (s.v x ||| s.v y)) := rfl

theorem exec_andReg (x y : RegIdx) (s : State) : exec (.andReg x y) s = .next (s.advance.setV x (s.v x &&& s.v y)) := rfl

theorem exec_xorReg (x y : RegIdx) (s : State) : exec (.xorReg x y) s = .next (s.advance.setV x (s.v x ^^^ s.v y)) := rfl

theorem exec_rnd (x : RegIdx) (nn : Byte) (s : State) :
    exec (.rnd x nn) s = .next (s.advance.setV x (s.randomByte &&& nn)).countDraw := rfl

theorem onlyReg_setV (s : State) (x : RegIdx) (b : Byte) : OnlyReg x s (s.advance.setV x b) :=
  ⟨⟨rfl, fun _ => rfl⟩, fun k hk => s.advance.v_setV_ne x k b hk⟩

/-- An instruction that ends in one register write leaves the value there and everything else as it was. -/
theorem exists_next_of_setV {i : Instr} {s : State} {x : RegIdx} {b : Byte} (he : exec i s = .next (s.advance.setV x b)) :
    ∃ t, exec i s = .next t ∧ OnlyReg x s t ∧ t.v x = b :=
  ⟨_, he, onlyReg_setV s x b, s.advance.v_setV_same x b⟩

/-! ## The instructions that write a flag -/

theorem exec_addReg (x y : RegIdx) (s : State) :
    exec (.addReg x y) s = .next (s.advance.writeWithFlag x (s.v x + s.v y) (carry (s.v x) (s.v y))) := rfl

theorem exec_subReg (x y : RegIdx) (s : State) :
    exec (.subReg x y) s = .next (s.advance.writeWithFlag x (s.v x - s.v y) (notBorrow (s.v x) (s.v y))) := rfl

theorem exec_subn (x y : RegIdx) (s : State) :
    exec (.subn x y) s = .next (s.advance.writeWithFlag x (s.v y - s.v x) (notBorrow (s.v y) (s.v x))) := rfl

theorem exec_shr (x : RegIdx) (s : State) :
    exec (.shr x) s = .next (s.advance.writeWithFlag x (s.v x >>> 1) (lowBit (s.v x))) := rfl

theorem exec_shl (x : RegIdx) (s : State) :
    exec (.shl x) s = .next (s.advance.writeWithFlag x (s.v x <<< 1) (highBit (s.v x))) := rfl

theorem onlyRegAndFlag_writeWithFlag (s : State) (x : RegIdx) (r : Byte) (f : Bool) :
    OnlyRegAndFlag x s (s.advance.writeWithFlag x r f) := by
  refine ⟨⟨rfl, fun _ => rfl⟩, fun k hx hvf => ?_⟩
  rw [State.writeWithFlag_v, if_neg hvf, if_neg hx, State.advance_v]

/-- An instruction that ends in a result and a flag leaves both, and where they share VF the flag alone (R191, D6). -/
theorem exists_next_of_writeWithFlag {i : Instr} {s : State} {x : RegIdx} {r : Byte} {f : Bool}
    (he : exec i s = .next (s.advance.writeWithFlag x r f)) :
    ∃ t, exec i s = .next t ∧ OnlyRegAndFlag x s t ∧ (x ≠ vf → t.v x = r) ∧ t.v vf = flagByte f := by
  refine ⟨_, he, onlyRegAndFlag_writeWithFlag s x r f, fun hx => ?_, ?_⟩
  · rw [State.writeWithFlag_v, if_neg hx, if_pos rfl]
  · rw [State.writeWithFlag_v, if_pos rfl]

/-! ## Results and flags as numbers -/

theorem byte_sub_toNat (a b : Byte) : ((a - b).toNat : Int) = (a.toNat - b.toNat : Int) % 256 := by
  rw [BitVec.toNat_sub]
  omega

theorem flagByte_carry (a b : Byte) : flagByte (carry a b) = if 255 < a.toNat + b.toNat then 1 else 0 := by
  simp [flagByte, carry]

theorem flagByte_notBorrow (a b : Byte) : flagByte (notBorrow a b) = if b.toNat ≤ a.toNat then 1 else 0 := by
  simp [flagByte, notBorrow]

theorem flagByte_toNat (f : Bool) : (flagByte f).toNat = f.toNat := by
  cases f <;> rfl

theorem lowBit_toNat (a : Byte) : (lowBit a).toNat = a.toNat % 2 := by
  rw [lowBit, BitVec.getLsbD, Nat.toNat_testBit, pow_zero, Nat.div_one]

theorem highBit_toNat (a : Byte) : (highBit a).toNat = a.toNat / 128 := by
  rw [highBit, BitVec.getLsbD, Nat.toNat_testBit]
  omega

/-- An instruction that ends in the difference `a - b` and its NOT-borrow flag (R199, R201). -/
theorem exists_next_of_subtraction {i : Instr} {s : State} {x : RegIdx} {a b : Byte}
    (he : exec i s = .next (s.advance.writeWithFlag x (a - b) (notBorrow a b))) :
    ∃ t, exec i s = .next t ∧ OnlyRegAndFlag x s t ∧
      (x ≠ vf → ((t.v x).toNat : Int) = (a.toNat - b.toNat : Int) % 256) ∧
      t.v vf = if b.toNat ≤ a.toNat then 1 else 0 := by
  obtain ⟨t, ht, hframe, hx, hvf⟩ := exists_next_of_writeWithFlag he
  exact ⟨t, ht, hframe, fun h => by rw [hx h, byte_sub_toNat], hvf.trans (flagByte_notBorrow a b)⟩

/-! ## The decoder in family 8 -/

theorem decodeWord_packXYN_8 (x y : RegIdx) (n : BitVec 4) : decodeWord (packXYN 0x8 x y n) = decodeFamily8 x y n := by
  simp [decodeWord]

end Sys2Proof.Machine

namespace Sys2Proof.Proofs

open Sys2Proof.Machine

/-- Settles O44: the result is the byte sum and the flag its carry, both of the operands before the instruction. -/
theorem addRegistersSetsTheCarry : Obligations.AddRegistersSetsTheCarry := by
  intro x y s
  obtain ⟨t, ht, hframe, hx, hvf⟩ := exists_next_of_writeWithFlag (exec_addReg x y s)
  exact ⟨t, ht, hframe, fun h => by rw [hx h, BitVec.toNat_add], hvf.trans (flagByte_carry _ _)⟩

/-- Settles O45: SUB and SUBN are one subtraction with the operands exchanged. -/
theorem subtractionsSetNotBorrow : Obligations.SubtractionsSetNotBorrow := by
  intro x y s
  exact ⟨exists_next_of_subtraction (exec_subReg x y s), exists_next_of_subtraction (exec_subn x y s)⟩

/-- Settles O46: a shift by one halves or doubles, and the flag is the bit at the end it shifts out of. -/
theorem shiftsSetTheBitShiftedOut : Obligations.ShiftsSetTheBitShiftedOut := by
  intro x y s
  refine ⟨decodeWord_packXYN_8 x y 0x6, decodeWord_packXYN_8 x y 0xE, ?_, ?_⟩
  · obtain ⟨t, ht, hframe, hx, hvf⟩ := exists_next_of_writeWithFlag (exec_shr x s)
    refine ⟨t, ht, hframe, fun h => ?_, by rw [hvf, flagByte_toNat, lowBit_toNat]⟩
    rw [hx h, BitVec.toNat_ushiftRight, Nat.shiftRight_one]
  · obtain ⟨t, ht, hframe, hx, hvf⟩ := exists_next_of_writeWithFlag (exec_shl x s)
    refine ⟨t, ht, hframe, fun h => ?_, by rw [hvf, flagByte_toNat, highBit_toNat]⟩
    rw [hx h, BitVec.toNat_shiftLeft, Nat.shiftLeft_eq, pow_one, mul_comm]

/-- Settles O42: one register write each, of the byte or of the byte sum. -/
theorem byteLoadAndAddWriteOneRegister : Obligations.ByteLoadAndAddWriteOneRegister := by
  intro x nn s
  refine ⟨decodeWord_encode (.ldByte x nn), decodeWord_encode (.addByte x nn), exists_next_of_setV (exec_ldByte x nn s), ?_⟩
  obtain ⟨t, ht, hframe, hx⟩ := exists_next_of_setV (exec_addByte x nn s)
  exact ⟨t, ht, hframe, by rw [hx, BitVec.toNat_add]⟩

/-- Settles O43: one register write each; the bits of the result are those of the operands combined. -/
theorem copyAndLogicWriteOneRegister : Obligations.CopyAndLogicWriteOneRegister := by
  intro x y s
  refine ⟨decodeWord_encode (.ldReg x y), decodeWord_encode (.orReg x y), decodeWord_encode (.andReg x y),
    decodeWord_encode (.xorReg x y), exists_next_of_setV (exec_ldReg x y s), ?_, ?_, ?_⟩
  · obtain ⟨t, ht, hframe, hx⟩ := exists_next_of_setV (exec_orReg x y s)
    exact ⟨t, ht, hframe, fun j => by rw [hx, BitVec.getLsbD_or]⟩
  · obtain ⟨t, ht, hframe, hx⟩ := exists_next_of_setV (exec_andReg x y s)
    exact ⟨t, ht, hframe, fun j => by rw [hx, BitVec.getLsbD_and]⟩
  · obtain ⟨t, ht, hframe, hx⟩ := exists_next_of_setV (exec_xorReg x y s)
    exact ⟨t, ht, hframe, fun j => by rw [hx, BitVec.getLsbD_xor]⟩

/-- Settles O47: the draw's byte stays the opaque `Config.randomByte` of the counter; only its masking is computed. -/
theorem randomByteIsMasked : Obligations.RandomByteIsMasked := by
  intro x nn s
  refine ⟨decodeWord_encode (.rnd x nn), _, exec_rnd x nn s, rfl, fun k hk => ?_, fun _ => rfl, fun j => ?_⟩
  · rw [State.countDraw_v, State.v_setV_ne _ _ _ _ hk, State.advance_v]
  · rw [State.countDraw_v, State.v_setV_same, BitVec.getLsbD_and, State.randomByte]

end Sys2Proof.Proofs
end

section
/-! PROOFS. The index register: ANNN, FX29 and FX1E write `I` alone (spec/43_index_memory.md R220 to R222); FX55 and FX65 meet at
the same bytes because neither moves `I` (R219, R224, R225). -/

namespace Sys2Proof.Machine

/-! ## The instructions that write `I` -/

theorem exec_ldI (nnn : BitVec 12) (s : State) : exec (.ldI nnn) s = .next (s.advance.setIndex (zextAddr nnn)) := rfl

theorem exec_addI (x : RegIdx) (s : State) :
    exec (.addI x) s = .next (s.advance.setIndex (s.index + zextByte (s.v x))) := rfl

theorem exec_ldF (x : RegIdx) (s : State) : exec (.ldF x) s = .next (s.advance.setIndex (glyphAddress (s.v x))) := rfl

/-- An instruction that ends in a write of `I` leaves the value there and everything else as it was. -/
theorem exists_next_of_setIndex {i : Instr} {s : State} {a : Addr} {n : Nat}
    (he : exec i s = .next (s.advance.setIndex a)) (ha : a.toNat = n) :
    ∃ t, exec i s = .next t ∧ t = { s with index := t.index, pc := s.pc + 2 } ∧ t.index.toNat = n ∧
      ∀ k, t.byteAt k = s.byteAt k :=
  ⟨_, he, rfl, ha, fun _ => rfl⟩

/-! ## The values written, as numbers -/

theorem zextByte_toNat (b : Byte) : (zextByte b).toNat = b.toNat :=
  BitVec.toNat_setWidth_of_le (by decide)

/-- The address of a glyph does not wrap: the largest byte gives 1275 (R222). -/
theorem glyphAddress_toNat (b : Byte) : (glyphAddress b).toNat = b.toNat * 5 := by
  have hb := b.isLt
  rw [glyphAddress, BitVec.toNat_mul, zextByte_toNat]
  exact Nat.mod_eq_of_lt (show b.toNat * 5 < 65536 by omega)

theorem index_add_zextByte_toNat (a : Addr) (b : Byte) : (a + zextByte b).toNat = (a.toNat + b.toNat) % 65536 := by
  rw [BitVec.toNat_add, zextByte_toNat]

end Sys2Proof.Machine

namespace Sys2Proof.Proofs

open Sys2Proof.Machine

/-- Settles O53: the load finds the stored bytes, because the store leaves `I` and the configuration (D7). -/
theorem storedRegistersLoadBack : Obligations.StoredRegistersLoadBack := by
  intro x s other hroom
  obtain ⟨t, ht, hstored, -, hcompletes, -⟩ := registerStoreCopiesUpToX x s
  obtain ⟨u, hu, hloaded, -⟩ := registerLoadCopiesUpToX x { t with regs := other }
  have hbase : t.base = s.base := (congrArg State.base (hcompletes hroom) :)
  have hcfg : t.cfg = s.cfg := (congrArg State.cfg (hcompletes hroom) :)
  refine ⟨t, u, ht, hu, fun k hk => ?_⟩
  have hin : t.base + k.toNat < t.cfg.memSize := by rw [hbase, hcfg]; omega
  have hload : t.byteAt (t.base + k.toNat) = some (u.v k) := hloaded k hk hin
  rw [hbase, hstored k hk (by omega)] at hload
  exact (Option.some.inj hload).symm

/-- Settles O48: neither value wraps, `NNN` being 12 bits wide and a byte times 5 below 2^16. -/
theorem indexLoadsWriteTheIndex : Obligations.IndexLoadsWriteTheIndex := by
  intro nnn x s
  exact ⟨decodeWord_encode (.ldI nnn), decodeWord_encode (.ldF x),
    exists_next_of_setIndex (exec_ldI nnn s) (zextAddr_toNat nnn),
    exists_next_of_setIndex (exec_ldF x s) (glyphAddress_toNat (s.v x))⟩

/-- Settles O49: the 16-bit sum is the sum modulo 2^16, and `I` the one register written. -/
theorem indexAddWrapsWithoutAFlag : Obligations.IndexAddWrapsWithoutAFlag := by
  intro x s
  exact exists_next_of_setIndex (exec_addI x s) (index_add_zextByte_toNat s.index (s.v x))

end Sys2Proof.Proofs
end

section
/-! PROOFS. Pixels and bitmaps: CLS and the snapshot (spec/44_display.md R240, R243); drawing a sprite is an XOR with one pattern,
so a second drawing undoes the first (R241, R242). -/

namespace Sys2Proof.Machine

open Sys2Proof.Claims

/-! ## A bitmap and its pixels -/

theorem State.dispOk_iff (s : State) : s.dispOk = true ↔ s.disp.length = s.cfg.height * s.cfg.width := beq_iff_eq

/-- A place inside the bitmap holds the pixel (R243). -/
theorem Bitmap.getElem?_eq_pixel {w : Nat} {d : Bitmap} {r c : Nat} (h : r * w + c < d.length) :
    d[r * w + c]? = some (Bitmap.pixel w d r c) := by
  rw [Bitmap.pixel, List.getD_eq_getElem?_getD, List.getElem?_eq_getElem h, Option.getD_some]

/-- A bitmap is its size and its pixels: place `i` is pixel `(i / w, i % w)`. -/
theorem Bitmap.ext_pixel {w : Nat} {d d' : Bitmap} (hw : 0 < w) (hlen : d.length = d'.length)
    (hpix : ∀ r c, c < w → Bitmap.pixel w d r c = Bitmap.pixel w d' r c) : d = d' := by
  refine List.ext_getElem? fun i => ?_
  by_cases hi : i < d.length
  · have hplace : i / w * w + i % w = i := Nat.div_add_mod' i w
    have h := congrArg some (hpix (i / w) (i % w) (Nat.mod_lt i hw))
    rwa [← Bitmap.getElem?_eq_pixel (hplace.symm ▸ hi), ← Bitmap.getElem?_eq_pixel (hplace.symm ▸ hlen ▸ hi), hplace] at h
  · rw [List.getElem?_eq_none (not_lt.1 hi), List.getElem?_eq_none (hlen ▸ not_lt.1 hi)]

/-! ## Drawing the same bits twice -/

/-- Pixel `(r, c)` after `bits`, from the value `on` it had before (R242). -/
def toggled (bits : List PlacedBit) (r c : Nat) (on : Bool) : Bool :=
  bits.foldl (fun on e => if e.row = r ∧ e.col = c then Bool.xor on e.bit else on) on

/-- What bits do to a pixel is an XOR with a value of their own. -/
theorem toggled_eq_xor (bits : List PlacedBit) (r c : Nat) (on : Bool) :
    toggled bits r c on = Bool.xor on (toggled bits r c false) := by
  induction bits generalizing on with
  | nil => exact (Bool.xor_false on).symm
  | cons e bits ih =>
    have hcons : ∀ b, toggled (e :: bits) r c b = toggled bits r c (if e.row = r ∧ e.col = c then Bool.xor b e.bit else b) :=
      fun _ => rfl
    by_cases hit : e.row = r ∧ e.col = c
    · rw [hcons, hcons, if_pos hit, if_pos hit, ih, ih (Bool.xor false e.bit), Bool.false_xor, Bool.xor_assoc]
    · rw [hcons, hcons, if_neg hit, if_neg hit, ih]

theorem toggled_toggled (bits : List PlacedBit) (r c : Nat) (on : Bool) :
    toggled bits r c (toggled bits r c on) = on := by
  rw [toggled_eq_xor, toggled_eq_xor bits r c on, Bool.xor_assoc, Bool.xor_self, Bool.xor_false]

/-- Bits inside the bitmap drawn twice leave it as it was, also where some of them share a pixel (R241, D22). -/
theorem drawBits_drawBits {w : Nat} {bits : List PlacedBit} {d : Bitmap} (hw : 0 < w)
    (hin : ∀ e ∈ bits, e.col < w ∧ e.row * w + e.col < d.length) (col col' : Bool) :
    (drawBits w bits ((drawBits w bits (d, col)).1, col')).1 = d := by
  refine Bitmap.ext_pixel hw (by simp only [drawBits_length]) fun r c hc => ?_
  have hin' : ∀ e ∈ bits, e.col < w ∧ e.row * w + e.col < (drawBits w bits (d, col)).1.length := by
    simpa only [drawBits_length] using hin
  rw [drawBits_pixel w bits (_, col') hin' r c hc, drawBits_pixel w bits (d, col) hin r c hc]
  exact toggled_toggled bits r c _

/-- A second DXYN at the same coordinates draws the bits of the first: neither `I`, memory nor the coordinates changed. -/
theorem State.afterDraw_afterDraw_disp {s : State} {x y : RegIdx} (hd : HasDisplay s) (hx : x ≠ vf) (hy : y ≠ vf)
    (n : BitVec 4) : ((s.afterDraw x y n).afterDraw x y n).disp = s.disp := by
  change ((s.afterDraw x y n).drawSprite x y n).1 = s.disp
  rw [State.drawSprite, s.afterDraw_v_ne x y n hx, s.afterDraw_v_ne x y n hy]
  exact drawBits_drawBits hd.2.1 (spriteBits_inside hd (s.v x).toNat (s.v y).toNat n.toNat) false false

/-! ## CLS -/

theorem exec_cls (s : State) : exec .cls s = .next (s.advance.setDisp (Bitmap.blank s.cfg.width s.cfg.height)) := rfl

end Sys2Proof.Machine

namespace Sys2Proof.Proofs

open Sys2Proof.Machine

/-- Settles O57: a sprite is XORed onto the display, and the second drawing XORs the same bits once more. -/
theorem drawingTwiceRestoresTheDisplay : Obligations.DrawingTwiceRestoresTheDisplay := by
  intro x y n s hx hy hd hm
  exact ⟨s.afterDraw x y n, (s.afterDraw x y n).afterDraw x y n, exec_drw_eq hm x y,
    exec_drw_eq (s := s.afterDraw x y n) hm x y, State.afterDraw_afterDraw_disp hd hx hy n⟩

/-- Settles O21: the snapshot is the bitmap, in which `r * W + c` is a place (D21). -/
theorem snapshotIsTheBitmapRowMajor : Obligations.SnapshotIsTheBitmapRowMajor := by
  intro s hd
  have hlen := s.dispOk_iff.1 hd
  exact ⟨hlen, fun r c hr hc => Bitmap.getElem?_eq_pixel (hlen ▸ pixelIndex_lt hr hc)⟩

/-- Settles O54: the next state holds the blank bitmap. -/
theorem clearTurnsEveryPixelOff : Obligations.ClearTurnsEveryPixelOff := by
  refine ⟨decodeWord_encode .cls, fun s => ⟨_, exec_cls s, rfl, ?_, rfl, fun _ => rfl⟩⟩
  exact Bitmap.blank_pixel s.cfg.width s.cfg.height

end Sys2Proof.Proofs
end

section
/-! PROOFS. What a step sees of the display (spec/44_display.md R244): no instruction but DXYN reads it, and a DXYN over another
display differs in VF and the display alone. -/

namespace Sys2Proof.Machine

open Sys2Proof.Claims

variable (d : Bitmap)

/-! ## The checked instructions with another display -/

theorem State.pokeBytes_setDisp (s : State) (o : Nat) (bs : List Byte) :
    (s.setDisp d).pokeBytes o bs = (s.pokeBytes o bs).setDisp d := by
  induction bs generalizing s o with
  | nil => rfl
  | cons b bs ih => exact ih (s.poke o b) (o + 1)

section
variable {s t : State} {w : Word}

theorem storeBytes_conclude_setDisp {bs : List Byte}
    (h : (storeBytes bs s.base s.advance).conclude s.pc w (fun _ s => s) = .next t) :
    (storeBytes bs s.base (s.setDisp d).advance).conclude s.pc w (fun _ s => s) = .next (t.setDisp d) := by
  have hstore : (s.setDisp d).storeAtIndex bs = (s.storeAtIndex bs).setDisp d := s.advance.pokeBytes_setDisp d _ _
  refine (storeBytes_conclude (s.setDisp d) bs w).trans ?_
  rw [storeBytes_conclude] at h
  cases h
  rw [hstore, apply_ite (State.setDisp · d)]
  rfl

theorem keyIsDown_conclude_setDisp {k : Byte} {taken : Bool → Bool}
    (h : (keyIsDown k s.advance).conclude s.pc w (fun down u => keySkip s.pc (taken down) u) = .next t) :
    (keyIsDown k (s.setDisp d).advance).conclude s.pc w (fun down u => keySkip s.pc (taken down) u) =
      .next (t.setDisp d) := by
  by_cases hk : k.toNat < 16
  · have hok : ∀ u, keyIsDown k u = .ok u.keys[k.toNat] u := fun _ => dif_pos hk
    rw [hok, Access.conclude_ok, keySkip_eq] at h ⊢
    cases h
    rfl
  · have hfail : ∀ u, keyIsDown k u = .failed .key k.toNat u := fun _ => dif_neg hk
    rw [hfail] at h ⊢
    cases h
    rfl

end

/-! ## An instruction with another display -/

/-- An instruction that is neither CLS nor DXYN passes the display through unread. -/
theorem exec_setDisp {i : Instr} {s t : State} (hc : i ≠ .cls) (hd : ∀ x y n, i ≠ .drw x y n) (h : exec i s = .next t) :
    exec i (s.setDisp d) = .next (t.setDisp d) := by
  cases i
  case cls => exact absurd rfl hc
  case drw x y n => exact absurd rfl (hd x y n)
  case ret =>
    by_cases hsp : s.sp = 0
    · rw [exec_ret_of_empty hsp] at h; cases h
      exact exec_ret_of_empty (s := s.setDisp d) hsp
    · rw [exec_ret_of_nonempty hsp] at h; cases h
      exact exec_ret_of_nonempty (s := s.setDisp d) hsp
  case call nnn =>
    by_cases hsp : s.sp = s.cfg.stackCapacity
    · rw [exec_call_of_full hsp] at h; cases h
      exact exec_call_of_full (s := s.setDisp d) hsp nnn
    · rw [exec_call_of_room hsp] at h; cases h
      exact exec_call_of_room (s := s.setDisp d) hsp nnn
  case skp x => exact keyIsDown_conclude_setDisp d (taken := id) h
  case sknp x => exact keyIsDown_conclude_setDisp d (taken := not) h
  case ldB x => exact storeBytes_conclude_setDisp (s := s) d h
  case ldStore x => exact storeBytes_conclude_setDisp (s := s) d h
  case ldLoad x =>
    obtain ⟨u, hu, hv, he⟩ := exec_ldLoad x s
    obtain ⟨u', hu', hv', he'⟩ := exec_ldLoad x (s.setDisp d)
    have hregs : u'.regs = u.regs := regs_ext fun k => (hv' k).trans (hv k).symm
    have hsame : u' = u.setDisp d := by
      rw [hu', hregs, hu]
      rfl
    rw [he] at h
    cases h
    rw [he', hsame, apply_ite (State.setDisp · d)]
    rfl
  case seByte | sneByte | seReg | sneReg =>
    simp only [exec_seByte, exec_sneByte, exec_seReg, exec_sneReg, State.skipIf_eq] at h ⊢
    cases h
    rfl
  case ldK x =>
    simp only [exec, execLdK, State.setDisp_mode, State.setDisp_latch] at h ⊢
    split at h
    · cases h; rfl
    · split at h <;> cases h <;> rfl
    · cases h; rfl
  all_goals
    cases h
    rfl

/-- CLS overwrites the display, whatever it was. -/
theorem exec_cls_setDisp (s : State) : exec .cls (s.setDisp d) = exec .cls s := rfl

/-- DXYN over another display completes or halts alike, and differs in VF and the display alone. -/
theorem exec_drw_setDisp {x y : RegIdx} {n : BitVec 4} {s t : State} (h : exec (.drw x y n) s = .next t) :
    ∃ u, exec (.drw x y n) (s.setDisp d) = .next u ∧ { u with disp := t.disp, regs := t.regs } = t ∧
      ∀ k, k ≠ vf → u.v k = t.v k := by
  by_cases hm : SpriteInMemory s n
  · rw [exec_drw_eq hm] at h; cases h
    refine ⟨_, exec_drw_eq (s := s.setDisp d) hm x y, rfl, fun k hk => ?_⟩
    rw [State.afterDraw_v_ne _ _ _ _ hk, State.afterDraw_v_ne _ _ _ _ hk, State.setDisp_v]
  · rw [exec_drw_of_not_inMemory hm] at h; cases h
    refine ⟨_, exec_drw_of_not_inMemory (s := s.setDisp d) hm x y, rfl, fun k hk => ?_⟩
    rw [State.haltDraw_v_ne _ _ _ _ hk, State.haltDraw_v_ne _ _ _ _ hk, State.setDisp_v]

/-! ## A step with another display -/

theorem State.wordAtPc_setDisp (s : State) : (s.setDisp d).wordAtPc = s.wordAtPc := by
  rw [State.wordAtPc_eq, State.wordAtPc_eq]
  rfl

/-- A step with another display: the same next state but for that display, or the instruction at `pc` over that display. -/
theorem step_setDisp {s t : State} (h : step s = .next t) :
    step (s.setDisp d) = .next (t.setDisp d) ∨
      ∃ i, s.instrAtPc = some i ∧ exec i s = .next t ∧ step (s.setDisp d) = exec i (s.setDisp d) := by
  rcases step_cases s with
    ⟨hm, hs⟩ | ⟨hm, hw, hs⟩ | ⟨w, hm, hw, hd, hs⟩ | ⟨w, -, -, -, hs⟩ | ⟨w, i, -, -, hi, hm, hs⟩ <;> rw [hs] at h
  · cases h
    exact .inl (step_of_halted (s := s.setDisp d) hm)
  · cases h
    exact .inl (step_of_wordAtPc_none ((s.wordAtPc_setDisp d).trans hw) hm)
  · cases h
    exact .inl (step_of_decodeWord_none ((s.wordAtPc_setDisp d).trans hw) hd hm)
  · cases h
  · have hi' : (s.setDisp d).instrAtPc = some i := (State.instrAtPc_congr (s := s) (t := s.setDisp d) rfl rfl rfl).trans hi
    exact .inr ⟨i, hi, h, step_of_instrAtPc hi' hm⟩

end Sys2Proof.Machine

namespace Sys2Proof.Proofs

open Sys2Proof.Machine

/-- Settles O34: CLS overwrites the display, DXYN lets it through to VF alone, and no other step reads it. -/
theorem onlyDrawSeesTheDisplay : Obligations.OnlyDrawSeesTheDisplay := by
  intro s t d h
  rcases step_setDisp d h with hu | ⟨i, hi, he, hu⟩
  · exact ⟨t.setDisp d, hu, .inl rfl⟩
  · by_cases hdrw : ∃ x y n, i = .drw x y n
    · obtain ⟨x, y, n, rfl⟩ := hdrw
      obtain ⟨u, hexec, hsame, hv⟩ := exec_drw_setDisp d he
      exact ⟨u, hu.trans hexec, .inr ⟨⟨x, y, n, hi⟩, hsame, hv⟩⟩
    · by_cases hcls : i = .cls
      · subst hcls
        exact ⟨t, (hu.trans (exec_cls_setDisp d s)).trans he, .inl rfl⟩
      · have hexec := exec_setDisp d hcls (fun x y n hn => hdrw ⟨x, y, n, hn⟩) he
        exact ⟨t.setDisp d, hu.trans hexec, .inl rfl⟩

end Sys2Proof.Proofs
end

section
/-! PROOFS. The timers: the count-down (spec/45_timers.md R264, R265), the instructions that copy a timer (R260 to R262), and
what else may change one (R263). -/

namespace Sys2Proof.Machine

open Sys2Proof.Claims

/-! ## The count-down -/

theorem countDown_toNat (b : Byte) : (countDown b).toNat = b.toNat - 1 := by
  unfold countDown
  split <;> bv_omega

theorem countDown_iterate_toNat (n : Nat) (b : Byte) : (countDown^[n] b).toNat = b.toNat - n := by
  induction n generalizing b with
  | zero => rfl
  | succ n ih => rw [Function.iterate_succ_apply, ih, countDown_toNat, Nat.sub_sub, Nat.add_comm]

theorem ticks_eq_iterate (n : Nat) (s : State) :
    ticks n s = (s.setDt (countDown^[n] s.dt)).setSt (countDown^[n] s.st) := by
  induction n generalizing s with
  | zero => rfl
  | succ n ih => exact ih s.tickTimers

theorem State.soundActive_iff (s : State) : s.soundActive = true ↔ 0 < s.st.toNat := by
  simp [State.soundActive, BitVec.toNat_eq, Nat.pos_iff_ne_zero]

/-! ## FX07, FX15 and FX18 -/

theorem exec_ldFromDT (x : RegIdx) (s : State) : exec (.ldFromDT x) s = .next (s.advance.setV x s.dt) := rfl

theorem exec_ldDT (x : RegIdx) (s : State) : exec (.ldDT x) s = .next (s.advance.setDt (s.v x)) := rfl

theorem exec_ldST (x : RegIdx) (s : State) : exec (.ldST x) s = .next (s.advance.setSt (s.v x)) := rfl

/-! ## What changes a timer -/

/-- The instructions' part of R263; FX07 reads DT and is not among the writers. -/
theorem ExecShape.timers {i : Instr} {s t : State} (h : ExecShape i s t) :
    (t.dt = s.dt ∨ ∃ x, i = .ldDT x ∧ t.dt = s.v x) ∧ (t.st = s.st ∨ ∃ x, i = .ldST x ∧ t.st = s.v x) := by
  cases i <;> simp only [ExecShape] at h
  case ldK x =>
    rcases h with ⟨h, -⟩ | rfl
    · rw [h]; simp
    · simp
  case ldByte | addByte | ldReg | orReg | andReg | xorReg | ldFromDT | addReg | subReg | shr | subn | shl | rnd | drw |
      ldLoad =>
    rw [h.1]; simp
  all_goals rw [h]; simp

theorem State.load_timers (s : State) (bytes : List Byte) (o : Nat) :
    (s.load bytes o).dt = s.dt ∧ (s.load bytes o).st = s.st := by
  unfold State.load
  split
  · exact ⟨s.pokeBytes_dt o bytes, s.pokeBytes_st o bytes⟩
  · exact ⟨rfl, rfl⟩

/-- The host's part of R263: loads, key events and snapshots leave both timers. -/
theorem CommandShape.timers {c : Command} {z z' : Session} (h : CommandShape c z z') :
    c = .tickTimers ∨ c = .reset ∨ (c = .step ∧ step z.core = .next z'.core) ∨
      (z'.core.dt = z.core.dt ∧ z'.core.st = z.core.st) := by
  cases c with
  | tickTimers => exact .inl rfl
  | reset => exact .inr (.inl rfl)
  | step =>
    obtain ⟨t, ht, rfl⟩ := h
    exact .inr (.inr (.inl ⟨rfl, ht⟩))
  | load bytes o =>
    obtain ⟨-, rfl⟩ := h
    exact .inr (.inr (.inr (z.core.load_timers bytes o)))
  | keyDown k =>
    subst h
    refine .inr (.inr (.inr ?_))
    rw [State.keyDown, State.setKey_eq]
    exact ⟨rfl, rfl⟩
  | keyUp k =>
    subst h
    refine .inr (.inr (.inr ?_))
    rw [State.keyUp_eq]
    exact ⟨rfl, rfl⟩
  | snapshot =>
    subst h
    exact .inr (.inr (.inr ⟨rfl, rfl⟩))

end Sys2Proof.Machine

namespace Sys2Proof.Proofs

open Sys2Proof.Machine Sys2Proof.Claims

/-- Settles O58: each instruction is one write; a tick leaves a timer of 0 at 0. -/
theorem timerInstructionsCopyATimer : Obligations.TimerInstructionsCopyATimer := by
  intro x s
  refine ⟨decodeWord_encode (.ldFromDT x), decodeWord_encode (.ldDT x), decodeWord_encode (.ldST x),
    exists_next_of_setV (exec_ldFromDT x s), ⟨_, exec_ldDT x s, rfl, fun _ => rfl, fun hzero => ?_⟩,
    _, exec_ldST x s, rfl, fun _ => rfl⟩
  exact congrArg countDown hzero

/-- Settles O19: `n` ticks are `n` count-downs of each timer, and write nothing else. -/
theorem ticksCountTimersDownToZero : Obligations.TicksCountTimersDownToZero := by
  intro n s
  have hst : (ticks n s).st.toNat = s.st.toNat - n := by
    rw [ticks_eq_iterate]
    exact countDown_iterate_toNat n s.st
  refine ⟨?_, hst, ?_, ?_⟩
  · rw [ticks_eq_iterate]
    exact countDown_iterate_toNat n s.dt
  · rw [ticks_eq_iterate]
    rfl
  · rw [State.soundActive_iff, hst, Nat.sub_pos_iff_lt]

/-- Settles O25: of the commands left besides a tick and a reset only a step can change a timer, and it does so by the
instruction at `pc`. -/
theorem onlyTicksTimerWritesAndResetChangeTimers : Obligations.OnlyTicksTimerWritesAndResetChangeTimers := by
  intro c z z' h
  rcases (Session.command_shape h).2.timers with hc | hc | ⟨hc, hstep⟩ | ⟨hdt, hst⟩
  · exact ⟨fun _ => .inl hc, fun _ => .inl hc⟩
  · exact ⟨fun _ => .inr (.inl hc), fun _ => .inr (.inl hc)⟩
  · constructor
    · intro hne
      obtain ⟨i, hi, hshape⟩ := step_changes_by_exec State.advance_dt State.raise_dt hstep hne
      obtain ⟨x, rfl, hv⟩ := hshape.timers.1.resolve_left hne
      exact .inr (.inr ⟨hc, x, hi, hv⟩)
    · intro hne
      obtain ⟨i, hi, hshape⟩ := step_changes_by_exec State.advance_st State.raise_st hstep hne
      obtain ⟨x, rfl, hv⟩ := hshape.timers.2.resolve_left hne
      exact .inr (.inr ⟨hc, x, hi, hv⟩)
  · exact ⟨fun hne => absurd hdt hne, fun hne => absurd hst hne⟩

end Sys2Proof.Proofs
end

section
/-! PROOFS. The keys: key events (spec/46_input.md R280, R281), the key skips (R282, R283), and the key wait from the step that
begins it to the step that completes it (R284 to R286). -/

namespace Sys2Proof.Machine

open Sys2Proof.Claims

/-! ## Key events -/

section
variable {k : Int} (s : State)

theorem State.setKey_of_not_code (hk : ¬ (0 ≤ k ∧ k ≤ 15)) (down : Bool) : s.setKey k down = s := dif_neg hk

theorem State.keyUp_of_code (hk : 0 ≤ k ∧ k ≤ 15) :
    s.keyUp k = (s.setKey k false).setLatch (some (BitVec.ofInt 4 k)) := by
  lift k to Nat using hk.1
  rw [State.keyUp, if_pos hk, BitVec.ofInt_natCast, Int.toNat_natCast]

theorem State.keyUp_of_not_code (hk : ¬ (0 ≤ k ∧ k ≤ 15)) : s.keyUp k = s := if_neg hk

/-- The level written is the key's own, the other fifteen stay. -/
theorem State.setKey_keys_getElem (hk : 0 ≤ k ∧ k ≤ 15) (down : Bool) (j : Fin 16) :
    (s.setKey k down).keys[j] = if (j.val : Int) = k then down else s.keys[j] := by
  lift k to Nat using hk.1
  simp only [State.setKey, dif_pos hk, Fin.getElem_fin, Vector.getElem_set, Int.toNat_natCast, Nat.cast_inj, eq_comm]

end

@[simp] theorem State.keyUp_pc (s : State) (k : Int) : (s.keyUp k).pc = s.pc := by
  rw [s.keyUp_eq]

@[simp] theorem State.keyDown_latch (s : State) (k : Int) : (s.keyDown k).latch = s.latch := by
  rw [State.keyDown, s.setKey_eq]

@[simp] theorem State.keyDown_pc (s : State) (k : Int) : (s.keyDown k).pc = s.pc := by
  rw [State.keyDown, s.setKey_eq]

/-! ## The instruction at `pc` through the host's commands -/

@[simp] theorem State.tickTimers_instrAtPc (s : State) : s.tickTimers.instrAtPc = s.instrAtPc :=
  State.instrAtPc_congr rfl rfl rfl

@[simp] theorem State.keyDown_instrAtPc (s : State) (k : Int) : (s.keyDown k).instrAtPc = s.instrAtPc := by
  rw [State.keyDown, s.setKey_eq]
  exact State.instrAtPc_congr rfl rfl rfl

@[simp] theorem State.keyUp_instrAtPc (s : State) (k : Int) : (s.keyUp k).instrAtPc = s.instrAtPc := by
  rw [s.keyUp_eq]
  exact State.instrAtPc_congr rfl rfl rfl

/-! ## SKP and SKNP -/

section
variable {s : State} {b : Byte} (w : Word) (taken : Bool → Bool)

/-- A key skip on a code 0 to 15 is a conditional skip by that key's level (R282, R283). -/
theorem keyIsDown_conclude_of_code {k : Fin 16} (hk : b.toNat = k.val) :
    (keyIsDown b s.advance).conclude s.pc w (fun down t => keySkip s.pc (taken down) t) =
      .next (s.skipIf (taken s.keys[k])) := by
  have hok : keyIsDown b s.advance = .ok s.keys[k] s.advance := by simp [keyIsDown, hk]
  rw [hok, Access.conclude_ok, keySkip_eq, State.skipIf_eq]
  rfl

/-- On a code above 15 it raises, whatever its condition (D11). -/
theorem keyIsDown_conclude_of_not_code (hb : 15 < b.toNat) :
    (keyIsDown b s.advance).conclude s.pc w (fun down t => keySkip s.pc (taken down) t) =
      .next (s.advance.raise (outOfBoundsRecord s.pc (some w) .key b.toNat)) := by
  have hfail : keyIsDown b s.advance = .failed .key b.toNat s.advance := dif_neg (by omega)
  rw [hfail, Access.conclude_failed]

end

/-! ## LD Vx, K by mode and latch -/

theorem exec_ldK_of_running {s : State} (hm : s.mode = .running) (x : RegIdx) :
    exec (.ldK x) s = .next s.enterKeyWait := by
  simp only [exec, execLdK, hm]

theorem exec_ldK_of_latch_none {s : State} (hm : s.mode = .awaitingKey) (hl : s.latch = none) (x : RegIdx) :
    exec (.ldK x) s = .next s := by
  simp only [exec, execLdK, hm, hl, State.setPc_self]

theorem exec_ldK_of_latch_some {s : State} {k : KeyCode} (hm : s.mode = .awaitingKey) (hl : s.latch = some k)
    (x : RegIdx) : exec (.ldK x) s = .next (s.completeKeyWait x k) := by
  simp only [exec, execLdK, hm, hl]

theorem zextKey_toNat (k : KeyCode) : (zextKey k).toNat = k.toNat :=
  BitVec.toNat_setWidth_of_le (by decide)

theorem State.completeKeyWait_v_same (s : State) (x : RegIdx) (k : KeyCode) :
    (s.completeKeyWait x k).v x = zextKey k := s.advance.v_setV_same x _

theorem State.completeKeyWait_v_ne (s : State) {x j : RegIdx} (hj : j ≠ x) (k : KeyCode) :
    (s.completeKeyWait x k).v j = s.v j := s.advance.v_setV_ne x j _ hj

/-- A code 0 to 15 fits the latch. -/
theorem zextKey_ofInt_toNat {k : Int} (h0 : 0 ≤ k) (h15 : k ≤ 15) : ((zextKey (BitVec.ofInt 4 k)).toNat : Int) = k := by
  lift k to Nat using h0
  rw [zextKey_toNat, BitVec.ofInt_natCast, BitVec.toNat_ofNat, Nat.mod_eq_of_lt (by omega)]

/-! ## A session that waits for a key -/

/-- The session is past its first reset and waits at `A` for a key, over the FX0A of register `x`, with no release latched. -/
structure WaitsForKey (x : RegIdx) (A : Addr) (z : Session) : Prop where
  phase : z.phase ≠ .beforeReset
  mode : z.core.mode = .awaitingKey
  latch : z.core.latch = none
  instr : z.core.instrAtPc = some (.ldK x)
  pc : z.core.pc = A

theorem quiet_keyUp_iff (k : Int) : quiet (.keyUp k) = true ↔ ¬ (0 ≤ k ∧ k ≤ 15) := by
  simp only [quiet, Bool.or_eq_true, decide_eq_true_eq]
  omega

theorem Session.command_step {z : Session} {t : State} (hp : z.phase ≠ .beforeReset) (h : step z.core = .next t) :
    z.command .step = .next ⟨.stepping, t⟩ := by
  rw [Session.command_eq_issue hp, Session.issue, h]
  rfl

/-- The step that first runs FX0A begins the wait (R284). -/
theorem Session.step_waitsForKey {z : Session} {x : RegIdx} (hp : z.phase ≠ .beforeReset) (hm : z.core.mode = .running)
    (hi : z.core.instrAtPc = some (.ldK x)) :
    ∃ z', z.command .step = .next z' ∧ WaitsForKey x z.core.pc z' := by
  have hstep : step z.core = .next z.core.enterKeyWait :=
    (step_of_instrAtPc hi (.inl hm)).trans (exec_ldK_of_running hm x)
  have hinstr : z.core.enterKeyWait.instrAtPc = z.core.instrAtPc := State.instrAtPc_congr rfl rfl rfl
  exact ⟨_, Session.command_step hp hstep, ⟨nofun, rfl, rfl, hinstr.trans hi, rfl⟩⟩

section
variable {x : RegIdx} {A : Addr} {z : Session} (hw : WaitsForKey x A z)
include hw

theorem WaitsForKey.step_eq_exec : step z.core = exec (.ldK x) z.core :=
  step_of_instrAtPc hw.instr (.inr ⟨hw.mode, x, rfl⟩)

/-- A step stalls on the empty latch (R285), and no other quiet command touches what the wait rests on. -/
theorem WaitsForKey.quiet_command {c : Command} (hc : quiet c = true) :
    ∃ z', z.command c = .next z' ∧ WaitsForKey x A z' := by
  cases c with
  | step =>
    have hstall : step z.core = .next z.core := hw.step_eq_exec.trans (exec_ldK_of_latch_none hw.mode hw.latch x)
    exact ⟨_, Session.command_step hw.phase hstall, { hw with phase := nofun }⟩
  | tickTimers =>
    exact ⟨_, Session.command_eq_issue hw.phase, hw.phase, hw.mode, hw.latch,
      z.core.tickTimers_instrAtPc.trans hw.instr, hw.pc⟩
  | keyDown k =>
    exact ⟨_, Session.command_eq_issue hw.phase, hw.phase, (z.core.keyDown_mode k).trans hw.mode,
      (z.core.keyDown_latch k).trans hw.latch, (z.core.keyDown_instrAtPc k).trans hw.instr,
      (z.core.keyDown_pc k).trans hw.pc⟩
  | keyUp k =>
    refine ⟨_, Session.command_eq_issue hw.phase, ?_⟩
    rw [State.keyUp_of_not_code z.core ((quiet_keyUp_iff k).1 hc)]
    exact hw
  | snapshot => exact ⟨z, Session.command_eq_issue hw.phase, hw⟩
  | reset => cases hc
  | load bytes o => cases hc

/-- A release and the next step complete the wait: the release fills the latch (R281), the step empties it into `x[x]` (R285). -/
theorem WaitsForKey.release_step {k : Int} (h0 : 0 ≤ k) (h15 : k ≤ 15) :
    ∃ z', Session.run [.keyUp k, .step] z = .next z' ∧ ((z'.core.v x).toNat : Int) = k ∧ z'.core.pc = A + 2 ∧
      z'.core.mode = .running ∧ z'.core.latch = none := by
  have hup : z.command (.keyUp k) = .next ⟨z.phase, z.core.keyUp k⟩ := Session.command_eq_issue hw.phase
  have hmode : (z.core.keyUp k).mode = .awaitingKey := (z.core.keyUp_mode k).trans hw.mode
  have hlatch : (z.core.keyUp k).latch = some (BitVec.ofInt 4 k) := by
    rw [z.core.keyUp_of_code ⟨h0, h15⟩, State.setLatch_latch]
  have hpc : (z.core.keyUp k).pc = A := (z.core.keyUp_pc k).trans hw.pc
  have hinstr : (z.core.keyUp k).instrAtPc = some (.ldK x) := (z.core.keyUp_instrAtPc k).trans hw.instr
  have hstep : step (z.core.keyUp k) = .next ((z.core.keyUp k).completeKeyWait x (BitVec.ofInt 4 k)) :=
    (step_of_instrAtPc hinstr (.inr ⟨hmode, x, rfl⟩)).trans (exec_ldK_of_latch_some hmode hlatch x)
  refine ⟨⟨.stepping, (z.core.keyUp k).completeKeyWait x (BitVec.ofInt 4 k)⟩, ?_, ?_, congrArg (· + 2) hpc, rfl, rfl⟩
  · simp only [Session.run, hup, Session.command_step (z := ⟨z.phase, z.core.keyUp k⟩) hw.phase hstep]
  · rw [State.completeKeyWait_v_same]
    exact zextKey_ofInt_toNat h0 h15

end

/-! ## Runs of commands -/

theorem Session.run_cons_of_next {c : Command} {z z' : Session} (h : z.command c = .next z') (cs : List Command) :
    Session.run (c :: cs) z = Session.run cs z' := by
  rw [Session.run, h]

theorem Session.run_append_of_next {cs : List Command} {z z' : Session} (h : Session.run cs z = .next z')
    (ds : List Command) : Session.run (cs ++ ds) z = Session.run ds z' := by
  induction cs generalizing z with
  | nil => cases h; rfl
  | cons c cs ih =>
    rcases hc : z.command c with u | f | q <;> simp only [Session.run, hc] at h
    · rw [List.cons_append, Session.run_cons_of_next hc]
      exact ih h
    · cases h
    · cases h

theorem WaitsForKey.quiet_run {x : RegIdx} {A : Addr} {z : Session} {cs : List Command} (hw : WaitsForKey x A z)
    (hcs : ∀ c ∈ cs, quiet c = true) : ∃ z', Session.run cs z = .next z' ∧ WaitsForKey x A z' := by
  induction cs generalizing z with
  | nil => exact ⟨z, rfl, hw⟩
  | cons c cs ih =>
    obtain ⟨hc, hcs⟩ := List.forall_mem_cons.1 hcs
    obtain ⟨u, hu, hwu⟩ := hw.quiet_command hc
    rw [Session.run_cons_of_next hu]
    exact ih hwu hcs

end Sys2Proof.Machine

namespace Sys2Proof.Proofs

open Sys2Proof.Machine Sys2Proof.Claims

/-- Settles O22: the first step begins the wait, every quiet command keeps it, and the release and the step after it complete
it. -/
theorem keyWaitHoldsUntilAKeyIsReleased : Obligations.KeyWaitHoldsUntilAKeyIsReleased := by
  intro x z cs k hp hm hi hcs h0 h15
  obtain ⟨u, hu, hwu⟩ := Session.step_waitsForKey hp hm hi
  obtain ⟨z₁, hrun, hw⟩ := hwu.quiet_run hcs
  have hrun₁ : Session.run (.step :: cs) z = .next z₁ := (Session.run_cons_of_next hu cs).trans hrun
  obtain ⟨z₂, hrun₂, hz₂⟩ := hw.release_step h0 h15
  exact ⟨⟨z₁, hrun₁, hw.pc, hw.mode, hw.latch⟩, z₂, (Session.run_append_of_next hrun₁ _).trans hrun₂, hz₂⟩

/-- Settles O20: a code 0 to 15 reaches one level, and the latch at a release; any other code is ignored. -/
theorem keyEventsSetLevelAndLatch : Obligations.KeyEventsSetLevelAndLatch := by
  intro s k
  refine ⟨fun hk => ?_, fun hk => ⟨s.setKey_of_not_code hk true, s.keyUp_of_not_code hk⟩⟩
  rw [s.keyUp_of_code hk]
  exact ⟨s.setKey_keys_getElem hk true, s.setKey_eq k true, s.setKey_keys_getElem hk false,
    congrArg (·.setLatch (some (BitVec.ofInt 4 k))) (s.setKey_eq k false)⟩

/-- Settles O59: a code 0 to 15 makes the key skip a conditional skip by the level, a code above 15 raises. -/
theorem keySkipsReadTheKeyLevel : Obligations.KeySkipsReadTheKeyLevel := by
  intro x s
  refine ⟨fun k hk => ⟨?_, ?_⟩, fun hb => ⟨?_, ?_⟩⟩
  · exact exists_next_of_skipIf (keyIsDown_conclude_of_code _ id hk) Iff.rfl
  · exact exists_next_of_skipIf (keyIsDown_conclude_of_code _ not hk) (by rw [Bool.not_eq_true'])
  · exact keyIsDown_conclude_of_not_code _ id hb
  · exact keyIsDown_conclude_of_not_code _ not hb

/-- Settles O60: one case per mode and latch. -/
theorem keyWaitEntersStallsAndCompletes : Obligations.KeyWaitEntersStallsAndCompletes := by
  intro x s
  refine ⟨decodeWord_encode (.ldK x), fun hm => exec_ldK_of_running hm x,
    fun hm hl => exec_ldK_of_latch_none hm hl x, fun k hm hl => ?_⟩
  exact ⟨_, exec_ldK_of_latch_some hm hl x, rfl,
    (congrArg BitVec.toNat (s.completeKeyWait_v_same x k)).trans (zextKey_toNat k),
    fun j hj => s.completeKeyWait_v_ne hj k, fun _ => rfl⟩

end Sys2Proof.Proofs
end
